-- ==== Sys2Proof/Word.lean ====
section
/-! DEFINITION. The word types of the machine and their plainest arithmetic: bytes, 16-bit words, register
numbers (00_scope R3, R4). Every architectural value is unsigned and every widening is a zero extension (R4). -/

namespace Sys2Proof

/-- An 8-bit value: a general register, a memory byte, a timer (R4, R11). -/
abbrev Byte := BitVec 8

/-- A 16-bit value: an instruction word, `pc`, `I`, a stack entry (R4, R13, R16, R17). -/
abbrev Word := BitVec 16

/-- A general register number, 0 to 15 (R11, R63). -/
abbrev Reg := Fin 16

/-- Register VF, which doubles as the flag (R12). -/
abbrev VF : Reg := 15

/-- The four bits that name a register in an instruction word (R61). -/
abbrev regBits (x : Reg) : BitVec 4 := BitVec.ofFin x

end Sys2Proof
end

