-- ==== Sys2Proof/Syntax.lean ====
section
/-! DEFINITION. The instructions: one constructor per row of spec/opcode_table.json (30_encoding R70), operands in the
order X, Y, immediate (R75). Every operand type is exactly the range of its field (R61), so every `Instr` is well
formed by construction (log entry 9). -/

namespace Sys2Proof

/-- The 34 instructions (R70). -/
inductive Instr where
  /-- 0x00E0, clear the display (R90). -/
  | cls
  /-- 0x00EE, return from subroutine (R91). -/
  | ret
  /-- 0x1NNN, jump (R92). -/
  | jp (nnn : BitVec 12)
  /-- 0x2NNN, call (R93). -/
  | call (nnn : BitVec 12)
  /-- 0x3XNN, skip if `V[X] = NN` (R100). -/
  | seNn (x : Reg) (nn : Byte)
  /-- 0x4XNN, skip if `V[X] != NN` (R101). -/
  | sneNn (x : Reg) (nn : Byte)
  /-- 0x5XY0, skip if `V[X] = V[Y]` (R102). -/
  | seVy (x y : Reg)
  /-- 0x6XNN, load byte (R103). -/
  | ldNn (x : Reg) (nn : Byte)
  /-- 0x7XNN, add byte, no flag (R104). -/
  | addNn (x : Reg) (nn : Byte)
  /-- 0x8XY0, copy register (R111). -/
  | ldVy (x y : Reg)
  /-- 0x8XY1, bitwise or (R112). -/
  | orVy (x y : Reg)
  /-- 0x8XY2, bitwise and (R113). -/
  | andVy (x y : Reg)
  /-- 0x8XY3, bitwise exclusive or (R114). -/
  | xorVy (x y : Reg)
  /-- 0x8XY4, add with carry flag (R115). -/
  | addVy (x y : Reg)
  /-- 0x8XY5, subtract with "no borrow" flag (R116). -/
  | sub (x y : Reg)
  /-- 0x8XY6, shift right; the `Y` field is carried and ignored (R117, R71). -/
  | shr (x y : Reg)
  /-- 0x8XY7, reverse subtract (R118). -/
  | subn (x y : Reg)
  /-- 0x8XYE, shift left; the `Y` field is carried and ignored (R119, R71). -/
  | shl (x y : Reg)
  /-- 0x9XY0, skip if `V[X] != V[Y]` (R125). -/
  | sneVy (x y : Reg)
  /-- 0xANNN, load the index register (R126). -/
  | ldI (nnn : BitVec 12)
  /-- 0xBNNN, jump to `NNN + V[0]` (R127). -/
  | jpV0 (nnn : BitVec 12)
  /-- 0xCXNN, random byte AND mask (R128). -/
  | rnd (x : Reg) (nn : Byte)
  /-- 0xDXYN, draw a sprite of `N` rows (R135). -/
  | drw (x y : Reg) (n : Fin 16)
  /-- 0xEX9E, skip if key pressed (R150). -/
  | skp (x : Reg)
  /-- 0xEXA1, skip if key not pressed (R151). -/
  | sknp (x : Reg)
  /-- 0xFX07, read the delay timer (R156). -/
  | ldVxDt (x : Reg)
  /-- 0xFX0A, wait for a key by polling (R157). -/
  | ldVxK (x : Reg)
  /-- 0xFX15, set the delay timer (R158). -/
  | ldDtVx (x : Reg)
  /-- 0xFX18, set the sound timer (R159). -/
  | ldStVx (x : Reg)
  /-- 0xFX1E, add to the index register with range flag (R160). -/
  | addI (x : Reg)
  /-- 0xFX29, address of a font glyph (R161). -/
  | ldF (x : Reg)
  /-- 0xFX33, store decimal digits (R162). -/
  | ldB (x : Reg)
  /-- 0xFX55, store `V[0]` to `V[X]` (R163). -/
  | stRegs (x : Reg)
  /-- 0xFX65, load `V[0]` to `V[X]` (R164). -/
  | ldRegs (x : Reg)
  deriving DecidableEq, Repr

/-- The rows of the opcode map by name (R70); the mnemonics are the spec's own (R75). -/
inductive Mnemonic where
  | CLS | RET | JP | CALL | SE_NN | SNE_NN | SE_VY | LD_NN | ADD_NN
  | LD_VY | OR | AND | XOR | ADD_VY | SUB | SHR | SUBN | SHL
  | SNE_VY | LD_I | JP_V0 | RND | DRW | SKP | SKNP
  | LD_VX_DT | LD_VX_K | LD_DT_VX | LD_ST_VX | ADD_I | LD_F | LD_B | ST_REGS | LD_REGS
  deriving DecidableEq, Repr

/-- The row an instruction belongs to (R70). -/
def Instr.mnemonic : Instr → Mnemonic
  | .cls => .CLS
  | .ret => .RET
  | .jp _ => .JP
  | .call _ => .CALL
  | .seNn _ _ => .SE_NN
  | .sneNn _ _ => .SNE_NN
  | .seVy _ _ => .SE_VY
  | .ldNn _ _ => .LD_NN
  | .addNn _ _ => .ADD_NN
  | .ldVy _ _ => .LD_VY
  | .orVy _ _ => .OR
  | .andVy _ _ => .AND
  | .xorVy _ _ => .XOR
  | .addVy _ _ => .ADD_VY
  | .sub _ _ => .SUB
  | .shr _ _ => .SHR
  | .subn _ _ => .SUBN
  | .shl _ _ => .SHL
  | .sneVy _ _ => .SNE_VY
  | .ldI _ => .LD_I
  | .jpV0 _ => .JP_V0
  | .rnd _ _ => .RND
  | .drw _ _ _ => .DRW
  | .skp _ => .SKP
  | .sknp _ => .SKNP
  | .ldVxDt _ => .LD_VX_DT
  | .ldVxK _ => .LD_VX_K
  | .ldDtVx _ => .LD_DT_VX
  | .ldStVx _ => .LD_ST_VX
  | .addI _ => .ADD_I
  | .ldF _ => .LD_F
  | .ldB _ => .LD_B
  | .stRegs _ => .ST_REGS
  | .ldRegs _ => .LD_REGS

/-- The six formats of an instruction word (R62). -/
inductive Format where
  | K | A | XI | XY | XYN | XS
  deriving DecidableEq, Repr

/-- The format of each row (R62, R70). -/
def Mnemonic.format : Mnemonic → Format
  | .CLS | .RET => .K
  | .JP | .CALL | .LD_I | .JP_V0 => .A
  | .SE_NN | .SNE_NN | .LD_NN | .ADD_NN | .RND => .XI
  | .SE_VY | .LD_VY | .OR | .AND | .XOR | .ADD_VY | .SUB | .SHR | .SUBN | .SHL | .SNE_VY => .XY
  | .DRW => .XYN
  | .SKP | .SKNP | .LD_VX_DT | .LD_VX_K | .LD_DT_VX | .LD_ST_VX | .ADD_I | .LD_F | .LD_B
  | .ST_REGS | .LD_REGS => .XS

end Sys2Proof
end

