-- ==== Sys2Proof/WellFormed.lean ====
section
/-! DEFINITION. Well-formedness of an assembler line (30_encoding R75): a mnemonic with operands written as plain
numbers, in the order X, Y, immediate. A line is well formed when it has the operands its format names and each lies in
the range of its field (R61, R63); a well-formed line is an `Instr`, and every `Instr` is well formed by its types. -/

namespace Sys2Proof

/-- The operand fields of an instruction word (R61). -/
inductive Field where
  | X | Y | N | NN | NNN
  deriving DecidableEq, Repr

/-- How many values a field has (R61). -/
def Field.bound : Field → Nat
  | .X | .Y | .N => 16
  | .NN => 256
  | .NNN => 4096

/-- The operand fields of each format, in assembler order (R62, R75). -/
def Format.fields : Format → List Field
  | .K => []
  | .A => [.NNN]
  | .XI => [.X, .NN]
  | .XY => [.X, .Y]
  | .XYN => [.X, .Y, .N]
  | .XS => [.X]

/-- One assembler line (R75): the mnemonic and its operands as numbers. -/
structure AsmLine where
  mn : Mnemonic
  ops : List Nat
  deriving DecidableEq, Repr

/-- The operands with the `Y` of SHR and SHL supplied where it is not written ("the `Y` field is written 0 unless
stated", R75). -/
def AsmLine.filled (l : AsmLine) : List Nat :=
  match l.mn, l.ops with
  | .SHR, [x] => [x, 0]
  | .SHL, [x] => [x, 0]
  | _, ops => ops

/-- Check 1: as many operands as the format has fields (R62). -/
def AsmLine.countOk (l : AsmLine) : Bool := l.filled.length == l.mn.format.fields.length

/-- Check 2: each operand in the range of its field (R61). -/
def AsmLine.rangesOk (l : AsmLine) : Bool :=
  (l.filled.zip l.mn.format.fields).all fun p => decide (p.1 < p.2.bound)

/-- A well-formed assembler line. -/
def AsmLine.WellFormed (l : AsmLine) : Bool := l.countOk && l.rangesOk

/-- The instruction a well-formed line stands for; an ill-formed line stands for none. -/
def AsmLine.toInstr (l : AsmLine) : Option Instr :=
  if l.WellFormed then
    let r (k : Nat) : Reg := Fin.ofNat 16 (l.filled.getD k 0)
    let nn : Byte := BitVec.ofNat 8 (l.filled.getD 1 0)
    let nnn : BitVec 12 := BitVec.ofNat 12 (l.filled.getD 0 0)
    some <| match l.mn with
      | .CLS => .cls
      | .RET => .ret
      | .JP => .jp nnn
      | .CALL => .call nnn
      | .SE_NN => .seNn (r 0) nn
      | .SNE_NN => .sneNn (r 0) nn
      | .SE_VY => .seVy (r 0) (r 1)
      | .LD_NN => .ldNn (r 0) nn
      | .ADD_NN => .addNn (r 0) nn
      | .LD_VY => .ldVy (r 0) (r 1)
      | .OR => .orVy (r 0) (r 1)
      | .AND => .andVy (r 0) (r 1)
      | .XOR => .xorVy (r 0) (r 1)
      | .ADD_VY => .addVy (r 0) (r 1)
      | .SUB => .sub (r 0) (r 1)
      | .SHR => .shr (r 0) (r 1)
      | .SUBN => .subn (r 0) (r 1)
      | .SHL => .shl (r 0) (r 1)
      | .SNE_VY => .sneVy (r 0) (r 1)
      | .LD_I => .ldI nnn
      | .JP_V0 => .jpV0 nnn
      | .RND => .rnd (r 0) nn
      | .DRW => .drw (r 0) (r 1) (r 2)
      | .SKP => .skp (r 0)
      | .SKNP => .sknp (r 0)
      | .LD_VX_DT => .ldVxDt (r 0)
      | .LD_VX_K => .ldVxK (r 0)
      | .LD_DT_VX => .ldDtVx (r 0)
      | .LD_ST_VX => .ldStVx (r 0)
      | .ADD_I => .addI (r 0)
      | .LD_F => .ldF (r 0)
      | .LD_B => .ldB (r 0)
      | .ST_REGS => .stRegs (r 0)
      | .LD_REGS => .ldRegs (r 0)
  else none

end Sys2Proof
end

