-- ==== Sys2Proof/Decode.lean ====
section
/-! DEFINITION. Decoding: the operand fields of an instruction word (30_encoding R61), the two-level dispatch on family
and sub-opcode (R64 to R69), the words that match no row, rejected by name (R72), and an encoder written from the
formats of R62 and the match and mask columns of R70. -/

namespace Sys2Proof

/-- The families that hold unknown words, by which a word is rejected (R72). -/
inductive UnknownGroup where
  /-- 0x0NNN other than 0x00E0 and 0x00EE (R65, R94). -/
  | family0
  /-- 0x5XYN with `N != 0` (R66, R105). -/
  | family5
  /-- 0x8XYN with `N` in 8 to 0xD or 0xF (R67, R120). -/
  | family8
  /-- 0x9XYN with `N != 0` (R66, R129). -/
  | family9
  /-- 0xEXNN with `NN` not 0x9E and not 0xA1 (R68, R153). -/
  | familyE
  /-- 0xFXNN with `NN` none of the nine sub-opcodes (R69, R165). -/
  | familyF
  deriving DecidableEq, Repr

/-- Why bytes are no instruction. -/
inductive DecodeError where
  /-- Fewer than the two bytes of an instruction word (R60). -/
  | tooShort
  /-- The word matches no row of the opcode map (R72). -/
  | unknown (g : UnknownGroup) (oc : Word)
  deriving DecidableEq, Repr

/-- `oc[15:12]` (R61). -/
def family (oc : Word) : BitVec 4 := oc.extractLsb' 12 4
/-- `X = oc[11:8]` (R61; conflict C1: the patterns win). -/
def fieldX (oc : Word) : Reg := (oc.extractLsb' 8 4).toFin
/-- `Y = oc[7:4]` (R61; conflict C1). -/
def fieldY (oc : Word) : Reg := (oc.extractLsb' 4 4).toFin
/-- `N = oc[3:0]` (R61). -/
def fieldN (oc : Word) : BitVec 4 := oc.extractLsb' 0 4
/-- `NN = oc[7:0]` (R61). -/
def fieldNN (oc : Word) : Byte := oc.extractLsb' 0 8
/-- `NNN = oc[11:0]` (R61). -/
def fieldNNN (oc : Word) : BitVec 12 := oc.extractLsb' 0 12

/-- Family 0 is matched on all 16 bits (R65, decision D2). -/
def decode0 (nnn : BitVec 12) : Except UnknownGroup Instr :=
  if nnn = 0x0E0#12 then .ok .cls
  else if nnn = 0x0EE#12 then .ok .ret
  else .error .family0

/-- Family 8 by its sub-opcode `N` (R67). -/
def decode8 (n : BitVec 4) (x y : Reg) : Except UnknownGroup Instr :=
  if n = 0x0#4 then .ok (.ldVy x y)
  else if n = 0x1#4 then .ok (.orVy x y)
  else if n = 0x2#4 then .ok (.andVy x y)
  else if n = 0x3#4 then .ok (.xorVy x y)
  else if n = 0x4#4 then .ok (.addVy x y)
  else if n = 0x5#4 then .ok (.sub x y)
  else if n = 0x6#4 then .ok (.shr x y)
  else if n = 0x7#4 then .ok (.subn x y)
  else if n = 0xE#4 then .ok (.shl x y)
  else .error .family8

/-- Family 0xE by its sub-opcode `NN` (R68). -/
def decodeE (nn : Byte) (x : Reg) : Except UnknownGroup Instr :=
  if nn = 0x9E#8 then .ok (.skp x)
  else if nn = 0xA1#8 then .ok (.sknp x)
  else .error .familyE

/-- Family 0xF by its sub-opcode `NN` (R69). -/
def decodeF (nn : Byte) (x : Reg) : Except UnknownGroup Instr :=
  if nn = 0x07#8 then .ok (.ldVxDt x)
  else if nn = 0x0A#8 then .ok (.ldVxK x)
  else if nn = 0x15#8 then .ok (.ldDtVx x)
  else if nn = 0x18#8 then .ok (.ldStVx x)
  else if nn = 0x1E#8 then .ok (.addI x)
  else if nn = 0x29#8 then .ok (.ldF x)
  else if nn = 0x33#8 then .ok (.ldB x)
  else if nn = 0x55#8 then .ok (.stRegs x)
  else if nn = 0x65#8 then .ok (.ldRegs x)
  else .error .familyF

/-- The instruction of a word, or the group of unknown words it lies in (R64 to R69, R72, R83). Total on all 65536
words. -/
def decode (oc : Word) : Except UnknownGroup Instr :=
  match family oc with
  | 0x0#4 => decode0 (fieldNNN oc)
  | 0x1#4 => .ok (.jp (fieldNNN oc))
  | 0x2#4 => .ok (.call (fieldNNN oc))
  | 0x3#4 => .ok (.seNn (fieldX oc) (fieldNN oc))
  | 0x4#4 => .ok (.sneNn (fieldX oc) (fieldNN oc))
  | 0x5#4 => if fieldN oc = 0#4 then .ok (.seVy (fieldX oc) (fieldY oc)) else .error .family5
  | 0x6#4 => .ok (.ldNn (fieldX oc) (fieldNN oc))
  | 0x7#4 => .ok (.addNn (fieldX oc) (fieldNN oc))
  | 0x8#4 => decode8 (fieldN oc) (fieldX oc) (fieldY oc)
  | 0x9#4 => if fieldN oc = 0#4 then .ok (.sneVy (fieldX oc) (fieldY oc)) else .error .family9
  | 0xA#4 => .ok (.ldI (fieldNNN oc))
  | 0xB#4 => .ok (.jpV0 (fieldNNN oc))
  | 0xC#4 => .ok (.rnd (fieldX oc) (fieldNN oc))
  | 0xD#4 => .ok (.drw (fieldX oc) (fieldY oc) (fieldN oc).toFin)
  | 0xE#4 => decodeE (fieldNN oc) (fieldX oc)
  | _ => decodeF (fieldNN oc) (fieldX oc) -- 0xF, the only family left of the sixteen (R64, R69)

/-- The instruction word of two bytes of memory: the byte at the lower address is the high byte (20_memory R46,
decision D1). -/
def wordOfBytes (hi lo : Byte) : Word := hi ++ lo

/-- Decoding bytes as memory holds them: an instruction is two bytes, high byte first; the rest is given back (R46,
R60). -/
def decodeBytes : List Byte → Except DecodeError (Instr × List Byte)
  | hi :: lo :: rest =>
    match decode (wordOfBytes hi lo) with
    | .ok i => .ok (i, rest)
    | .error g => .error (.unknown g (wordOfBytes hi lo))
  | _ => .error .tooShort

/-- The encoder, from the formats of R62 and the patterns of R70. -/
def encode : Instr → Word
  | .cls => 0x00E0#16
  | .ret => 0x00EE#16
  | .jp nnn => 0x1#4 ++ nnn
  | .call nnn => 0x2#4 ++ nnn
  | .seNn x nn => 0x3#4 ++ regBits x ++ nn
  | .sneNn x nn => 0x4#4 ++ regBits x ++ nn
  | .seVy x y => 0x5#4 ++ regBits x ++ regBits y ++ 0x0#4
  | .ldNn x nn => 0x6#4 ++ regBits x ++ nn
  | .addNn x nn => 0x7#4 ++ regBits x ++ nn
  | .ldVy x y => 0x8#4 ++ regBits x ++ regBits y ++ 0x0#4
  | .orVy x y => 0x8#4 ++ regBits x ++ regBits y ++ 0x1#4
  | .andVy x y => 0x8#4 ++ regBits x ++ regBits y ++ 0x2#4
  | .xorVy x y => 0x8#4 ++ regBits x ++ regBits y ++ 0x3#4
  | .addVy x y => 0x8#4 ++ regBits x ++ regBits y ++ 0x4#4
  | .sub x y => 0x8#4 ++ regBits x ++ regBits y ++ 0x5#4
  | .shr x y => 0x8#4 ++ regBits x ++ regBits y ++ 0x6#4
  | .subn x y => 0x8#4 ++ regBits x ++ regBits y ++ 0x7#4
  | .shl x y => 0x8#4 ++ regBits x ++ regBits y ++ 0xE#4
  | .sneVy x y => 0x9#4 ++ regBits x ++ regBits y ++ 0x0#4
  | .ldI nnn => 0xA#4 ++ nnn
  | .jpV0 nnn => 0xB#4 ++ nnn
  | .rnd x nn => 0xC#4 ++ regBits x ++ nn
  | .drw x y n => 0xD#4 ++ regBits x ++ regBits y ++ BitVec.ofFin (w := 4) n
  | .skp x => 0xE#4 ++ regBits x ++ 0x9E#8
  | .sknp x => 0xE#4 ++ regBits x ++ 0xA1#8
  | .ldVxDt x => 0xF#4 ++ regBits x ++ 0x07#8
  | .ldVxK x => 0xF#4 ++ regBits x ++ 0x0A#8
  | .ldDtVx x => 0xF#4 ++ regBits x ++ 0x15#8
  | .ldStVx x => 0xF#4 ++ regBits x ++ 0x18#8
  | .addI x => 0xF#4 ++ regBits x ++ 0x1E#8
  | .ldF x => 0xF#4 ++ regBits x ++ 0x29#8
  | .ldB x => 0xF#4 ++ regBits x ++ 0x33#8
  | .stRegs x => 0xF#4 ++ regBits x ++ 0x55#8
  | .ldRegs x => 0xF#4 ++ regBits x ++ 0x65#8

/-- The bytes of an instruction as memory holds them, high byte first (R46). -/
def encodeBytes (i : Instr) : List Byte :=
  [(encode i).extractLsb' 8 8, (encode i).extractLsb' 0 8]

/-- The match column of the opcode map (R70). -/
def rowMatch : Mnemonic → Word
  | .CLS => 0x00E0#16
  | .RET => 0x00EE#16
  | .JP => 0x1000#16
  | .CALL => 0x2000#16
  | .SE_NN => 0x3000#16
  | .SNE_NN => 0x4000#16
  | .SE_VY => 0x5000#16
  | .LD_NN => 0x6000#16
  | .ADD_NN => 0x7000#16
  | .LD_VY => 0x8000#16
  | .OR => 0x8001#16
  | .AND => 0x8002#16
  | .XOR => 0x8003#16
  | .ADD_VY => 0x8004#16
  | .SUB => 0x8005#16
  | .SHR => 0x8006#16
  | .SUBN => 0x8007#16
  | .SHL => 0x800E#16
  | .SNE_VY => 0x9000#16
  | .LD_I => 0xA000#16
  | .JP_V0 => 0xB000#16
  | .RND => 0xC000#16
  | .DRW => 0xD000#16
  | .SKP => 0xE09E#16
  | .SKNP => 0xE0A1#16
  | .LD_VX_DT => 0xF007#16
  | .LD_VX_K => 0xF00A#16
  | .LD_DT_VX => 0xF015#16
  | .LD_ST_VX => 0xF018#16
  | .ADD_I => 0xF01E#16
  | .LD_F => 0xF029#16
  | .LD_B => 0xF033#16
  | .ST_REGS => 0xF055#16
  | .LD_REGS => 0xF065#16

/-- The mask column of the opcode map, which is one value per format but for the two constant words (R70). -/
def rowMask (m : Mnemonic) : Word :=
  match m.format with
  | .K => 0xFFFF#16
  | .A | .XI | .XYN => 0xF000#16
  | .XY => 0xF00F#16
  | .XS => 0xF0FF#16

/-- A word is the instruction of row `m` when `oc AND mask = match` (R70). -/
def inRow (oc : Word) (m : Mnemonic) : Bool := oc &&& rowMask m == rowMatch m

/-- The instruction the decoder reads from an instruction whose bits are `w`, numbered as the opcode table numbers them
(R4: bit 0 is the least significant bit of the word): the word's two bytes laid out as memory holds them. Bits at and
above `nbits` are 0. -/
def decodeTableWord (nbits w : Nat) : Option Instr :=
  let oc : Word := BitVec.ofNat 16 (w % 2 ^ nbits)
  match decodeBytes [oc.extractLsb' 8 8, oc.extractLsb' 0 8] with
  | .ok (i, _) => some i
  | .error _ => none

end Sys2Proof
end

