-- ==== Sys2Proof/Config.lean ====
section
/-! DEFINITION. What the spec leaves open: one free value, the random byte (44_misc_9_C R128). The sizes of the machine
are fixed by the spec and no parameters (00_scope R3): they stand as numbers in the types of Machine/State.lean. -/

namespace Sys2Proof.Config

/-- FREE VALUE: the byte the host supplies at the n-th executed RND (R128, R198; decision D24 leaves it OPEN: "any
value", "under no law"). It has no body, so a claim proved of the machine holds whatever bytes the host supplies.
Safe; log entry 2. -/
opaque randomByte : Nat → Byte

end Sys2Proof.Config
end

