-- ==== Sys2Proof/Machine/State.lean ====
section
/-! DEFINITION. The machine state of 10_state R10, its fault latch (R22) and its value after reset (R26). -/

namespace Sys2Proof.Machine

/-- The faults of 60_exceptions R180, the values of the fault latch other than `None` (R22). The spec describes fault
entry (R184: the step's writes are discarded and the latch is set), so the machine TAKES a fault, in the one operation
`State.raise`, and its step answers a NEXT state that holds one of these in its latch; no step and no meaning answers
`Host.Outcome.fault` (log entry 4). -/
inductive Fault where
  /-- RET with `sp = 0` (R181). Raised by `execRet`. Safe: the faulted state is never a final state (decision D6). -/
  | stackUnderflow
  /-- CALL with `sp = 16` (R182). Raised by `execCall`. Safe, as above. -/
  | stackOverflow
  /-- A byte address above 0xFFF would be touched; `addr` is the lowest such address, diagnostic only (R42, R183).
  Raised by the fetch, DRW, LD_B, ST_REGS, LD_REGS. Safe: the spec faults where the source defines nothing (D5). -/
  | memOutOfRange (addr : Nat)
  deriving DecidableEq, Repr

/-- What is turned away. No instruction of this machine is refused: the two reasons below the first concern the host
event `LoadProgram` only. -/
inductive Refusal where
  /-- An instruction that has no meaning yet, by its mnemonic; no arm of `exec` answers it. Safe. -/
  | notModelled (mnemonic : String)
  /-- `LoadProgram` of more than 0xE00 bytes: "reported at load time", the state stays as it was (R199, R214). Raised by
  `loadProgram`. Safe: the spec refuses it. -/
  | programTooLarge (length : Nat)
  /-- `LoadProgram` after the first `Step` since `Reset`: outside the spec (R214, U17). Raised by `Event.apply`. Safe. -/
  | loadOutsideBoot
  deriving DecidableEq, Repr

/-- Memory as the list of the bytes that differ from what reset leaves (20_memory R40, R45), addresses strictly rising;
`Memory.wf` of Machine/Memory.lean says the form. -/
abbrev Memory := List Host.Cell

/-- The 64 by 32 grid of one-bit cells, row-major: cell `(x, y)`, the spec's cell `y*64 + x`, is bit `x` of row `y`
(R20; log entry 6). -/
abbrev Display := Vector (BitVec 64) 32

/-- The machine state (R10), under the spec's names, and the model's own two fields `draws` and `diags`. -/
structure State where
  /-- 4096 bytes (R23). -/
  memory : Memory
  /-- The general registers V0 to VF (R11). -/
  V : Vector Byte 16
  /-- The index register (R16). -/
  I : Word
  /-- The program counter (R13, R14). -/
  pc : Word
  /-- The return-address stack, outside memory (R17). -/
  stack : Vector Word 16
  /-- The stack depth, 0 to 16, indexing the next free slot (R17). -/
  sp : Fin 17
  /-- DT (R18). -/
  delayTimer : Byte
  /-- ST (R18). -/
  soundTimer : Byte
  /-- Key code `k` is pressed when bit `k` is 1 (R19, R196). -/
  keys : BitVec 16
  /-- The display grid (R20). -/
  display : Display
  /-- The dirty flag (R21). -/
  isDrawing : Bool
  /-- The fault latch; `none` is the spec's `None` (R22). -/
  fault : Option Fault
  /-- MODEL'S OWN: how many random bytes have been consumed (R128); it picks the next free byte. Log entry 2. -/
  draws : Nat
  /-- MODEL'S OWN: the unknown-instruction diagnostics emitted so far, oldest first (R190). Log entry 3. -/
  diags : List Word
  deriving DecidableEq, Repr

/-- The state after `Reset` (R26, R210). Memory lists nothing: an unlisted byte reads as reset leaves it. -/
def State.reset : State where
  memory := []
  V := Vector.replicate 16 0#8
  I := 0x0000#16
  pc := 0x0200#16
  stack := Vector.replicate 16 0x0000#16
  sp := 0
  delayTimer := 0x00#8
  soundTimer := 0x00#8
  keys := 0#16
  display := Vector.replicate 32 0#64
  isDrawing := false
  fault := none
  draws := 0
  diags := []

end Sys2Proof.Machine
end

