-- ==== Sys2Proof/Machine/Ops.lean ====
section
/-! DEFINITION. The named operations every meaning is built from: the pre-increment (40_step_cycle R82), the register
file, the stack, the range check (20_memory R44), TAKING A FAULT (60_exceptions R184), the fetch (R81) and the unknown
instruction word (R84). There is no return from a fault but `Reset` (R185), which is a host event (Machine/Events.lean). -/

namespace Sys2Proof.Machine

/-- The answer of a meaning. -/
abbrev Result := Host.Outcome State Fault Refusal

/-- `pc <- (pc + 2) mod 65536`: the generic pre-increment (R82), and the extra 2 of a skip that is taken (R13). -/
def State.advance (s : State) : State := { s with pc := s.pc + 2#16 }

/-- `pc <- target` (R13). -/
def State.setPc (s : State) (target : Word) : State := { s with pc := target }

/-- A skip: one extra 2 when the condition holds (R82, R100). -/
def State.skipIf (s : State) (c : Bool) : State := if c then s.advance else s

/-- Read of `V[x]` (R4, R11). -/
abbrev State.reg (s : State) (x : Reg) : Byte := s.V[x]

/-- `V[x] <- b` (R4, R11). No register is hardwired. -/
def State.setReg (s : State) (x : Reg) (b : Byte) : State := { s with V := s.V.set x.val b x.isLt }

/-- The two writes of a flag-writing instruction, in the spec's order: `V[0xF] <- flag`, then `V[x] <- result`; so the
result is what VF holds when `x = 15` (R12, R110, decision D4). -/
def State.setFlagThenReg (s : State) (x : Reg) (flag result : Byte) : State :=
  (s.setReg VF flag).setReg x result

/-- `I <- w` (R16). -/
def State.setI (s : State) (w : Word) : State := { s with I := w }

/-- The byte at an address of memory. -/
def State.byteAt (s : State) (a : Nat) : Byte := s.memory.read a

/-- `MemWrite` of the bytes of a list, ascending from `base` (R43, R48); the range has been checked. -/
def State.storeBytes (s : State) (base : Nat) (bs : List Byte) : State :=
  { s with memory := s.memory.writeBytes base bs }

/-- `V[k] <- MemRead(base + k, 1)` for the first `n` registers, ascending (R164); the range has been checked. -/
def State.loadRegs (s : State) (base : Nat) : Nat → State
  | 0 => s
  | n + 1 =>
    if h : n < 16 then (State.loadRegs s base n).setReg ⟨n, h⟩ (s.byteAt (base + n)) else State.loadRegs s base n

/-- `V[0]` to `V[x]`, ascending (R163). -/
def State.regsTo (s : State) (x : Reg) : List Byte := s.V.toList.take (x.val + 1)

/-- TAKING A FAULT (R184), the one operation that does: every write of the step is discarded (the state given is the one
the step began from), the latch is set, nothing else changes. -/
def State.raise (s : State) (f : Fault) : Result := .next { s with fault := some f }

/-- The cause codes of the fault table (R180). -/
def faultCode : Option Fault → Nat
  | none => 0
  | some .stackUnderflow => 1
  | some .stackOverflow => 2
  | some (.memOutOfRange _) => 3

/-- The fault of an access to `n` bytes from `base`, if any: a byte above 0xFFF would be touched, and the lowest such
address is recorded (R42, R44, R183, conflict C9). -/
def rangeFault (base n : Nat) : Option Fault :=
  if n ≥ 1 ∧ base + n - 1 > 0xFFF then some (.memOutOfRange (max base 0x1000)) else none

/-- An instruction that touches `n` bytes from `base` checks them all before it writes anything (R43, R183): the fault
is taken from `s`, the state the step began from, or the instruction goes on to `k`. -/
def State.inRange (s : State) (base n : Nat) (k : State) : Result :=
  match rangeFault base n with
  | some f => s.raise f
  | none => .next k

/-- The instruction word at `pc`, high byte first, at any parity; a fetch that touches an address above 0xFFF faults
(R42, R46, R47, R81). -/
def State.fetch (s : State) : Except Fault Word :=
  match rangeFault s.pc.toNat 2 with
  | some f => .error f
  | none => .ok (wordOfBytes (s.byteAt s.pc.toNat) (s.byteAt (s.pc.toNat + 1)))

/-- An unknown instruction word: the pre-increment, the diagnostic output, and no other change (R84, R190). -/
def execUnknown (oc : Word) (s : State) : Result := .next { s.advance with diags := s.diags ++ [oc] }

/-- One more random byte has been consumed (R128: exactly one per executed RND). -/
def State.countDraw (s : State) : State := { s with draws := s.draws + 1 }

/-- `stack[sp] <- w`, then `sp <- sp + 1` (R93); `none` when the stack is full (R182). -/
def State.push (s : State) (w : Word) : Option State :=
  if h : s.sp.val < 16 then
    some { s with stack := s.stack.set s.sp.val w h, sp := ⟨s.sp.val + 1, by omega⟩ }
  else none

/-- `sp <- sp - 1`, and the entry `stack[sp]` then read, which keeps its value (R91); `none` when the stack is empty
(R181). -/
def State.pop (s : State) : Option (State × Word) :=
  if h : 0 < s.sp.val then
    some ({ s with sp := ⟨s.sp.val - 1, by omega⟩ }, s.stack[s.sp.val - 1]'(by omega))
  else none

end Sys2Proof.Machine
end

