-- ==== Sys2Proof/Machine/Flags.lean ====
section
/-! DEFINITION. The values VF receives as a flag, each computed from the operand values before the instruction writes
anything (10_state R12). The seventh, DRW's collision, is Machine/Draw.lean's. -/

namespace Sys2Proof.Machine

/-- A condition as the flag value 1 or 0. -/
def flagBit (c : Bool) : Byte := if c then 1#8 else 0#8

/-- ADD_VY: the carry out of bit 7 (R115). -/
def carryFlag (x y : Byte) : Byte := flagBit (decide (x.toNat + y.toNat > 255))

/-- SUB and SUBN: 1 exactly when the minuend is STRICTLY greater; 0 when equal (R116, R118, U9). -/
def greaterFlag (minuend subtrahend : Byte) : Byte := flagBit (decide (minuend.toNat > subtrahend.toNat))

/-- SHR: the bit shifted out (R117). -/
def shrFlag (x : Byte) : Byte := x &&& 0x01#8

/-- SHL: the high nibble in place, not the bit shifted out (R119, U10). -/
def shlFlag (x : Byte) : Byte := x &&& 0xF0#8

/-- ADD_I: the exact sum lies above the 12-bit address range (R160). -/
def rangeFlag (i : Word) (x : Byte) : Byte := flagBit (decide (i.toNat + x.toNat > 0xFFF))

end Sys2Proof.Machine
end

