-- ==== Sys2Proof/Machine/Operands.lean ====
section
/-! DEFINITION. Operand forms: 12-bit addresses (30_encoding R63), the one addressing mode `I + k` (47 R166), key codes
(46_keys_E R152) and the key scan (47 R157), decimal digits (R162). -/

namespace Sys2Proof.Machine

/-- `zext_16(NNN)`: an address operand, bits 15:12 zero (R63). -/
def addrOf (nnn : BitVec 12) : Word := nnn.setWidth 16

/-- The base of the addressing mode `I + k`: exact, no wrap, no mask (R16, R166). -/
abbrev State.base (s : State) : Nat := s.I.toNat

/-- `pressed(k)`: key `k` is down; a code above 15 names no key and reads as not pressed (R152, decision D11). -/
def pressed (keys : BitVec 16) (k : Byte) : Bool := decide (k.toNat ≤ 15) && keys.getLsbD k.toNat

/-- The least pressed key code, scanning up from key 0 (R157). -/
def lowestKey (keys : BitVec 16) : Option Nat := (List.range 16).find? fun k => keys.getLsbD k

/-- The decimal digits of a byte, hundreds, tens, ones (R162). -/
def digits (b : Byte) : List Byte :=
  [BitVec.ofNat 8 (b.toNat / 100), BitVec.ofNat 8 (b.toNat / 10 % 10), BitVec.ofNat 8 (b.toNat % 10)]

/-- `zext_16(V[X]) * 5`: the address of a font glyph, the whole register multiplied (R161). -/
def glyphAddr (b : Byte) : Word := b.setWidth 16 * 5#16

end Sys2Proof.Machine
end

