-- ==== Sys2Proof/Machine/Alu.lean ====
section
/-! DEFINITION. Family 8 (43_alu_8): LD_VY, OR, AND, XOR, ADD_VY, SUB, SHR, SUBN, SHL. Operands are latched from the
state before the step; the flag is written first, the result second (R110). -/

namespace Sys2Proof.Machine

/-- LD_VY (R111). -/
def execLdVy (x y : Reg) (s : State) : Result := .next (s.advance.setReg x (s.reg y))

/-- OR (R112); VF is not written as a flag. -/
def execOr (x y : Reg) (s : State) : Result := .next (s.advance.setReg x (s.reg x ||| s.reg y))

/-- AND (R113); VF is not written as a flag. -/
def execAnd (x y : Reg) (s : State) : Result := .next (s.advance.setReg x (s.reg x &&& s.reg y))

/-- XOR (R114); VF is not written as a flag. -/
def execXor (x y : Reg) (s : State) : Result := .next (s.advance.setReg x (s.reg x ^^^ s.reg y))

/-- ADD_VY (R115). -/
def execAddVy (x y : Reg) (s : State) : Result :=
  .next (s.advance.setFlagThenReg x (carryFlag (s.reg x) (s.reg y)) (s.reg x + s.reg y))

/-- SUB (R116). -/
def execSub (x y : Reg) (s : State) : Result :=
  .next (s.advance.setFlagThenReg x (greaterFlag (s.reg x) (s.reg y)) (s.reg x - s.reg y))

/-- SHR (R117): logical, by one; the `Y` field is ignored (R71). -/
def execShr (x _y : Reg) (s : State) : Result :=
  .next (s.advance.setFlagThenReg x (shrFlag (s.reg x)) (s.reg x >>> 1))

/-- SUBN (R118). -/
def execSubn (x y : Reg) (s : State) : Result :=
  .next (s.advance.setFlagThenReg x (greaterFlag (s.reg y) (s.reg x)) (s.reg y - s.reg x))

/-- SHL (R119): by one; the `Y` field is ignored (R71). -/
def execShl (x _y : Reg) (s : State) : Result :=
  .next (s.advance.setFlagThenReg x (shlFlag (s.reg x)) (s.reg x <<< 1))

end Sys2Proof.Machine
end

