-- ==== Sys2Proof/Machine/Draw.lean ====
section
/-! DEFINITION. Family D (45_draw_D): the display grid, the sprite draw and its collision detector. -/

namespace Sys2Proof.Machine

/-- Cell `c` of the display, `c = y*64 + x` (R20). -/
def Display.cell (d : Display) (c : Fin 2048) : Bool :=
  (d[c.val / 64]'(by omega)).getLsbD (c.val % 64)

/-- Cell `c` of the machine's display. -/
def State.cell (s : State) (c : Fin 2048) : Bool := Display.cell s.display c

/-- The cell of row `py` and column `px` XORed with 1 (R135). -/
def Display.toggle (d : Display) (py : Fin 32) (px : Fin 64) : Display :=
  d.set py.val (d[py] ^^^ (1#64 <<< px.val)) py.isLt

/-- The single wrap: `c - size` once when `c >= size` (R136, decision D9). -/
def wrap1 (c size : Nat) : Nat := if c ≥ size then c - size else c

/-- The grid position of sprite bit (`row`, `col`) drawn at (`vx`, `vy`), as row and column; none where it is still
outside the grid after the single wrap, and is then dropped (R136, R137, decision D10). -/
def spritePos (vx vy row col : Nat) : Option (Fin 32 × Fin 64) :=
  let px := wrap1 (vx + col) 64
  let py := wrap1 (vy + row) 32
  if h : px ≤ 63 ∧ py ≤ 31 then some (⟨py, by omega⟩, ⟨px, by omega⟩) else none

/-- One sprite bit (R135): where it is set and lands in the grid, its cell is toggled, and a cell that was lit is a
collision (R138). The pair is the display so far and whether a collision has happened. -/
def drawBit (vx vy : Nat) (b : Byte) (row : Nat) (acc : Display × Bool) (col : Nat) : Display × Bool :=
  if b.getLsbD (7 - col) then
    match spritePos vx vy row col with
    | some (py, px) => (Display.toggle acc.1 py px, acc.2 || acc.1[py].getLsbD px.val)
    | none => acc
  else acc

/-- One sprite row, most significant bit first (R135). -/
def drawRow (vx vy : Nat) (b : Byte) (row : Nat) (acc : Display × Bool) : Display × Bool :=
  (List.range 8).foldl (drawBit vx vy b row) acc

/-- The rows of a sprite from row number `row` on, ascending (R135). -/
def drawRows (vx vy : Nat) : Nat → List Byte → Display × Bool → Display × Bool
  | _, [], acc => acc
  | row, b :: bs, acc => drawRows vx vy (row + 1) bs (drawRow vx vy b row acc)

/-- DRW (R135 to R143): coordinates and `I` latched (R139), the range checked before any write (R141), the sprite drawn
by XOR, VF the collision flag, `isDrawing` set on every execution that does not fault (R143). -/
def execDrw (x y : Reg) (n : Fin 16) (s : State) : Result :=
  let sprite := s.memory.readBytes s.base n.val
  let drawn := drawRows (s.reg x).toNat (s.reg y).toNat 0 sprite (s.display, false)
  s.inRange s.base n.val
    { s.advance.setReg VF (flagBit drawn.2) with display := drawn.1, isDrawing := true }

end Sys2Proof.Machine
end

