-- ==== Sys2Proof/Machine/Flow.lean ====
section
/-! DEFINITION. Families 0, 1 and 2 (41_flow_0_1_2): CLS, RET, JP, CALL. Every meaning, here and in the other families,
is the whole of `Exec` for its word (40_step_cycle R80, R86): it starts from the state before the step and makes the
pre-increment itself, so that a fault discards it (R184). -/

namespace Sys2Proof.Machine

/-- CLS (R90): every cell off; `isDrawing` keeps its value (conflict C2, decision D12). -/
def execCls (s : State) : Result := .next { s.advance with display := Vector.replicate 32 0#64 }

/-- RET (R91, R181). -/
def execRet (s : State) : Result :=
  match s.advance.pop with
  | none => s.raise .stackUnderflow
  | some (s', w) => .next (s'.setPc w)

/-- JP (R92). -/
def execJp (nnn : BitVec 12) (s : State) : Result := .next (s.advance.setPc (addrOf nnn))

/-- CALL (R93, R182): the address of the instruction after the CALL is pushed. -/
def execCall (nnn : BitVec 12) (s : State) : Result :=
  match s.advance.push s.advance.pc with
  | none => s.raise .stackOverflow
  | some s' => .next (s'.setPc (addrOf nnn))

end Sys2Proof.Machine
end

