-- ==== Sys2Proof/Machine/Immediate.lean ====
section
/-! DEFINITION. Families 3 to 7 (42_skip_load_add_3_7): SE_NN, SNE_NN, SE_VY, LD_NN, ADD_NN. -/

namespace Sys2Proof.Machine

/-- SE_NN (R100). -/
def execSeNn (x : Reg) (nn : Byte) (s : State) : Result := .next (s.advance.skipIf (decide (s.reg x = nn)))

/-- SNE_NN (R101). -/
def execSneNn (x : Reg) (nn : Byte) (s : State) : Result := .next (s.advance.skipIf (decide (s.reg x ≠ nn)))

/-- SE_VY (R102). -/
def execSeVy (x y : Reg) (s : State) : Result := .next (s.advance.skipIf (decide (s.reg x = s.reg y)))

/-- LD_NN (R103). -/
def execLdNn (x : Reg) (nn : Byte) (s : State) : Result := .next (s.advance.setReg x nn)

/-- ADD_NN (R104): wraps modulo 256; VF is not written as a flag. -/
def execAddNn (x : Reg) (nn : Byte) (s : State) : Result := .next (s.advance.setReg x (s.reg x + nn))

end Sys2Proof.Machine
end

