-- ==== Sys2Proof/Machine/Index.lean ====
section
/-! DEFINITION. Family F (47_timers_index_memory_F): the timers, the key wait, the index register, the decimal store,
register store and load. -/

namespace Sys2Proof.Machine

/-- LD_VX_DT (R156). -/
def execLdVxDt (x : Reg) (s : State) : Result := .next (s.advance.setReg x s.delayTimer)

/-- LD_VX_K (R157): the lowest pressed key, or `pc` back at the instruction, an ordinary step either way. -/
def execLdVxK (x : Reg) (s : State) : Result :=
  match lowestKey s.keys with
  | some k => .next (s.advance.setReg x (BitVec.ofNat 8 k))
  | none => .next (s.advance.setPc (s.advance.pc - 2#16))

/-- LD_DT_VX (R158). -/
def execLdDtVx (x : Reg) (s : State) : Result := .next { s.advance with delayTimer := s.reg x }

/-- LD_ST_VX (R159). -/
def execLdStVx (x : Reg) (s : State) : Result := .next { s.advance with soundTimer := s.reg x }

/-- ADD_I (R160): VF the range flag, then `I` the sum modulo 65536 (decision D8); operands latched (D4). -/
def execAddI (x : Reg) (s : State) : Result :=
  .next ((s.advance.setReg VF (rangeFlag s.I (s.reg x))).setI (s.I + (s.reg x).setWidth 16))

/-- LD_F (R161). -/
def execLdF (x : Reg) (s : State) : Result := .next (s.advance.setI (glyphAddr (s.reg x)))

/-- LD_B (R162): three digits; `I` is not changed. -/
def execLdB (x : Reg) (s : State) : Result :=
  s.inRange s.base 3 (s.advance.storeBytes s.base (digits (s.reg x)))

/-- ST_REGS (R163): `V[0]` to `V[x]` stored, then `I` advanced by the FIELD plus one. -/
def execStRegs (x : Reg) (s : State) : Result :=
  s.inRange s.base (x.val + 1)
    ((s.advance.storeBytes s.base (s.regsTo x)).setI (s.I + BitVec.ofNat 16 (x.val + 1)))

/-- LD_REGS (R164): `V[0]` to `V[x]` loaded, then `I` advanced as in ST_REGS. -/
def execLdRegs (x : Reg) (s : State) : Result :=
  s.inRange s.base (x.val + 1)
    ((s.advance.loadRegs s.base (x.val + 1)).setI (s.I + BitVec.ofNat 16 (x.val + 1)))

end Sys2Proof.Machine
end

