-- ==== Sys2Proof/Machine/Keys.lean ====
section
/-! DEFINITION. Family E (46_keys_E): SKP, SKNP. -/

namespace Sys2Proof.Machine

/-- SKP (R150). -/
def execSkp (x : Reg) (s : State) : Result := .next (s.advance.skipIf (pressed s.keys (s.reg x)))

/-- SKNP (R151). -/
def execSknp (x : Reg) (s : State) : Result := .next (s.advance.skipIf (!pressed s.keys (s.reg x)))

end Sys2Proof.Machine
end

