-- ==== Sys2Proof/Machine/Misc.lean ====
section
/-! DEFINITION. Families 9, A, B and C (44_misc_9_C): SNE_VY, LD_I, JP_V0, RND. -/

namespace Sys2Proof.Machine

/-- SNE_VY (R125). -/
def execSneVy (x y : Reg) (s : State) : Result := .next (s.advance.skipIf (decide (s.reg x ≠ s.reg y)))

/-- LD_I (R126). -/
def execLdI (nnn : BitVec 12) (s : State) : Result := .next (s.advance.setI (addrOf nnn))

/-- JP_V0 (R127): always register 0; the sum is not masked. -/
def execJpV0 (nnn : BitVec 12) (s : State) : Result :=
  .next (s.advance.setPc (addrOf nnn + (s.reg 0).setWidth 16))

/-- RND with the drawn byte `r` (R128): one byte is consumed whatever the mask. -/
def execRndWith (r : Byte) (x : Reg) (nn : Byte) (s : State) : Result :=
  .next ((s.advance.setReg x (r &&& nn)).countDraw)

/-- RND (R128): the drawn byte is a free value, fresh at each RND (decision D24, log entry 2). -/
def execRnd (x : Reg) (nn : Byte) (s : State) : Result := execRndWith (Config.randomByte s.draws) x nn s

end Sys2Proof.Machine
end

