-- ==== Sys2Proof/Machine/Step.lean ====
section
/-! DEFINITION. One step (40_step_cycle R80): the latch, the fetch, `Exec`. And the placing of one instruction where the
next step fetches it. -/

namespace Sys2Proof.Machine

/-- `Exec(oc)` (R80, R86): a defined word runs its instruction, any other word is an unknown instruction (R83, R84). -/
def execWord (oc : Word) (s : State) : Host.Outcome State Fault Refusal :=
  match decode oc with
  | .ok i => exec i s
  | .error _ => execUnknown oc s

/-- `Step` (R80), its checks in the order latch, fetch range, instruction (R186). A latched fault makes it a no-op
(R85). -/
def step (s : State) : Host.Outcome State Fault Refusal :=
  match s.fault with
  | some _ => .next s
  | none =>
    match s.fetch with
    | .error f => s.raise f
    | .ok oc => execWord oc s

/-- Where `step` fetches next: at `pc` where both bytes exist; where they do not (`pc > 0xFFE`, so that no step fetches
there, R81), the program base 0x200. -/
def State.fetchPlace (s : State) : Word := if s.pc.toNat ≤ 0xFFE then s.pc else 0x0200#16

/-- `s` with the word `w` stored, high byte first, where the next step fetches; the latch is cleared, since a latched
step fetches nothing (R85). Bits of `w` at and above `nbits` are 0. Log entry 8. -/
def State.withFetchWord (s : State) (nbits w : Nat) : State :=
  let oc : Word := BitVec.ofNat 16 (w % 2 ^ nbits)
  { s with
    pc := s.fetchPlace
    fault := none
    memory := s.memory.writeBytes s.fetchPlace.toNat [oc.extractLsb' 8 8, oc.extractLsb' 0 8] }

end Sys2Proof.Machine
end

