-- ==== Sys2Proof/Machine/Events.lean ====
section
/-! DEFINITION. The host's events (00_scope R6): Reset, LoadProgram, TimerTick, KeyUpdate, ClearDirty, each atomic and
between steps (R5), and a session, which takes any interleaving of them with steps (70 R215). -/

namespace Sys2Proof.Machine

/-- `Reset` (R210): every piece of the machine's state at its reset value, in any state, a faulted one too. The model's
own two fields go on: fresh random bytes, and the outputs already emitted (log entry 7). -/
def resetEvent (s : State) : State := { State.reset with draws := s.draws, diags := s.diags }

/-- A countdown value: one less while above zero, never below (R18, R193). -/
def countDown (t : Byte) : Byte := if t.toNat > 0 then t - 1#8 else t

/-- `TimerTick` (R193): both timers by the same event (decision D15); it acts on a faulted machine too (R185). -/
def timerTick (s : State) : State :=
  { s with delayTimer := countDown s.delayTimer, soundTimer := countDown s.soundTimer }

/-- `KeyUpdate(k)` (R196). -/
def keyUpdate (k : BitVec 16) (s : State) : State := { s with keys := k }

/-- `ClearDirty` (R197). -/
def clearDirty (s : State) : State := { s with isDrawing := false }

/-- `LoadProgram(bytes)` (R214): the whole image from 0x200 up, or, when it is longer than 0xE00 bytes, refused with the
state as it was (R199). -/
def loadProgram (bytes : List Byte) (s : State) : Host.Outcome State Fault Refusal :=
  if bytes.length > 0xE00 then .refused (.programTooLarge bytes.length)
  else .next (s.storeBytes 0x200 bytes)

/-- Whether a `Step` has happened since the last `Reset` (R214, decision D19). -/
inductive Phase where
  | boot
  | running
  deriving DecidableEq, Repr

/-- A machine with its boot window. -/
structure Session where
  machine : State
  phase : Phase
  deriving DecidableEq, Repr

/-- Power-on is a `Reset` (R212). -/
def Session.powerOn : Session := { machine := State.reset, phase := .boot }

/-- The events of R6 that write state. -/
inductive Event where
  | reset
  | loadProgram (bytes : List Byte)
  | step
  | timerTick
  | keyUpdate (k : BitVec 16)
  | clearDirty
  deriving DecidableEq, Repr

/-- An outcome of the machine as an outcome of the session, in the phase given. -/
def inPhase (p : Phase) : Host.Outcome State Fault Refusal → Host.Outcome Session Fault Refusal
  | .next m => .next { machine := m, phase := p }
  | .fault f => .fault f
  | .refused r => .refused r

/-- One event of a session. A refused event changes nothing (R199, R214): the session stays the one given. -/
def Event.apply (e : Event) (ss : Session) : Host.Outcome Session Fault Refusal :=
  match e with
  | .reset => .next { machine := resetEvent ss.machine, phase := .boot }
  | .loadProgram bytes =>
    match ss.phase with
    | .boot => inPhase .boot (Sys2Proof.Machine.loadProgram bytes ss.machine)
    | .running => .refused .loadOutsideBoot
  | .step => inPhase .running (Sys2Proof.Machine.step ss.machine)
  | .timerTick => .next { ss with machine := Sys2Proof.Machine.timerTick ss.machine }
  | .keyUpdate k => .next { ss with machine := Sys2Proof.Machine.keyUpdate k ss.machine }
  | .clearDirty => .next { ss with machine := Sys2Proof.Machine.clearDirty ss.machine }

end Sys2Proof.Machine
end

