-- ==== Sys2Proof/Safety.lean ====
section
/-! DEFINITION. The terms claims use: which states are canonical, which sessions can be reached, and, column by column of
the state, what the spec's tables say an instruction leaves there (10_state R11, R12, R15 to R21; 60_exceptions R180).
These are written from those tables and the rules' arithmetic, not from the meanings: that the meanings agree with them is
what is claimed. -/

namespace Sys2Proof.Safety

open Sys2Proof.Machine

/-- A memory in canonical form, the model's own list form of R23's 4096 bytes (log entry 5): listed addresses strictly
rising and below 4096, no entry equal to what reset leaves at its address. -/
def Canonical (s : State) : Prop := s.memory.wf = true

/-- A session that some sequence of events reaches from power-on (R6, R212, R215). -/
inductive Reachable : Session → Prop where
  | powerOn : Reachable Session.powerOn
  | event (e : Event) (a b : Session) : Reachable a → e.apply a = .next b → Reachable b

/-- `n` steps with no host event between them (R88). -/
def steps : Nat → State → Host.Outcome State Fault Refusal
  | 0, s => .next s
  | n + 1, s =>
    match step s with
    | .next t => steps n t
    | .fault f => .fault f
    | .refused r => .refused r

/-- The fault an instruction raises, by the table of R180 and the conditions of R181 to R183. -/
def faultOf (i : Instr) (s : State) : Option Fault :=
  match i with
  | .ret => if s.sp.val = 0 then some .stackUnderflow else none
  | .call _ => if s.sp.val = 16 then some .stackOverflow else none
  | .drw _ _ n =>
    if n.val ≥ 1 ∧ s.I.toNat + n.val - 1 > 0xFFF then some (.memOutOfRange (max s.I.toNat 0x1000)) else none
  | .ldB _ => if s.I.toNat + 2 > 0xFFF then some (.memOutOfRange (max s.I.toNat 0x1000)) else none
  | .stRegs x => if s.I.toNat + x.val > 0xFFF then some (.memOutOfRange (max s.I.toNat 0x1000)) else none
  | .ldRegs x => if s.I.toNat + x.val > 0xFFF then some (.memOutOfRange (max s.I.toNat 0x1000)) else none
  | _ => none

/-- Key `k` of R152: one of the sixteen, and pressed. -/
def keyDown (s : State) (k : Byte) : Bool := if k.toNat ≤ 15 then s.keys.getLsbD k.toNat else false

/-- Where `pc` is after an instruction that does not fault, by the table of R15. -/
def pcAfter (i : Instr) (s : State) : Word :=
  match i with
  | .seNn x nn => if s.V[x] = nn then s.pc + 4#16 else s.pc + 2#16
  | .sneNn x nn => if s.V[x] = nn then s.pc + 2#16 else s.pc + 4#16
  | .seVy x y => if s.V[x] = s.V[y] then s.pc + 4#16 else s.pc + 2#16
  | .sneVy x y => if s.V[x] = s.V[y] then s.pc + 2#16 else s.pc + 4#16
  | .skp x => if keyDown s s.V[x] then s.pc + 4#16 else s.pc + 2#16
  | .sknp x => if keyDown s s.V[x] then s.pc + 2#16 else s.pc + 4#16
  | .jp nnn => BitVec.ofNat 16 nnn.toNat
  | .call nnn => BitVec.ofNat 16 nnn.toNat
  | .ret => s.stack.toList.getD (s.sp.val - 1) 0#16
  | .jpV0 nnn => BitVec.ofNat 16 (nnn.toNat + s.V[0].toNat)
  | .ldVxK _ => if s.keys = 0#16 then s.pc else s.pc + 2#16
  | _ => s.pc + 2#16

/-- Sprite bit (`row`, `col`) of a DRW of `n` rows, column 0 the most significant bit (R135). -/
def spriteBit (s : State) (n row col : Nat) : Bool :=
  decide (row < n) && (s.byteAt (s.I.toNat + row)).getLsbD (7 - col)

/-- Whether sprite bit (`row`, `col`) drawn at (`vx`, `vy`) is drawn at cell `c`: "exactly when `vx + col <= 127` and
`vy + row <= 63`" (R137), wrapped once (R136). -/
def landsAt (vx vy row col c : Nat) : Bool :=
  decide (vx + col ≤ 127) && decide (vy + row ≤ 63) && decide (c = (vy + row) % 32 * 64 + (vx + col) % 64)

/-- Whether some set sprite bit is drawn at cell `c` (R140). -/
def drawnAt (s : State) (x y : Reg) (n : Fin 16) (c : Nat) : Bool :=
  (List.range 16).any fun row => (List.range 8).any fun col =>
    spriteBit s n.val row col && landsAt s.V[x].toNat s.V[y].toNat row col c

/-- A collision: a cell that was lit before the draw is drawn at (R138, R140); the cells row by row, cell `(px, py)`
being number `py*64 + px` (R20). -/
def collides (s : State) (x y : Reg) (n : Fin 16) : Bool :=
  (List.finRange 32).any fun py => (List.finRange 64).any fun px =>
    drawnAt s x y n (py.val * 64 + px.val) && s.cell ⟨py.val * 64 + px.val, by omega⟩

/-- The value VF receives as a flag, by the table of R12; none for the instructions that write no flag. -/
def flagOf (i : Instr) (s : State) : Option Byte :=
  match i with
  | .addVy x y => some (if s.V[x].toNat + s.V[y].toNat > 255 then 1#8 else 0#8)
  | .sub x y => some (if s.V[x].toNat > s.V[y].toNat then 1#8 else 0#8)
  | .shr x _ => some (BitVec.ofNat 8 (s.V[x].toNat % 2))
  | .subn x y => some (if s.V[y].toNat > s.V[x].toNat then 1#8 else 0#8)
  | .shl x _ => some (BitVec.ofNat 8 (s.V[x].toNat / 16 * 16))
  | .drw x y n => some (if collides s x y n then 1#8 else 0#8)
  | .addI x => some (if s.I.toNat + s.V[x].toNat > 0xFFF then 1#8 else 0#8)
  | _ => none

/-- The pressed keys, ascending (R157). -/
def pressedKeys (s : State) : List Nat := (List.range 16).filter fun k => s.keys.getLsbD k

/-- The ordinary destination of an instruction and the value it receives (R11, R103 to R128, R156, R157); none for the
instructions that write no `V[X]` (LD_REGS, which writes several, apart). Arithmetic is on numbers, modulo 256 (R121). -/
def resultOf (i : Instr) (s : State) : Option (Reg × Byte) :=
  match i with
  | .ldNn x nn => some (x, nn)
  | .addNn x nn => some (x, BitVec.ofNat 8 ((s.V[x].toNat + nn.toNat) % 256))
  | .ldVy x y => some (x, s.V[y])
  | .orVy x y => some (x, s.V[x] ||| s.V[y])
  | .andVy x y => some (x, s.V[x] &&& s.V[y])
  | .xorVy x y => some (x, s.V[x] ^^^ s.V[y])
  | .addVy x y => some (x, BitVec.ofNat 8 ((s.V[x].toNat + s.V[y].toNat) % 256))
  | .sub x y => some (x, BitVec.ofNat 8 ((s.V[x].toNat + 256 - s.V[y].toNat) % 256))
  | .shr x _ => some (x, BitVec.ofNat 8 (s.V[x].toNat / 2))
  | .subn x y => some (x, BitVec.ofNat 8 ((s.V[y].toNat + 256 - s.V[x].toNat) % 256))
  | .shl x _ => some (x, BitVec.ofNat 8 (s.V[x].toNat * 2 % 256))
  | .rnd x nn => some (x, Config.randomByte s.draws &&& nn)
  | .ldVxDt x => some (x, s.delayTimer)
  | .ldVxK x => (pressedKeys s).head?.map fun k => (x, BitVec.ofNat 8 k)
  | _ => none

/-- Register `r` after an instruction that does not fault: LD_REGS loads `V[0]` to `V[X]` (R164); otherwise the ordinary
destination holds its result, and VF, where it is not that destination, the flag (R12: "VF ends holding the result, not
the flag"); every other register is unchanged. -/
def regAfter (i : Instr) (s : State) (r : Reg) : Byte :=
  match i with
  | .ldRegs x => if r.val ≤ x.val then s.byteAt (s.I.toNat + r.val) else s.V[r]
  | _ =>
    match resultOf i s with
    | some (x, v) => if r = x then v else if r = VF then (flagOf i s).getD s.V[r] else s.V[r]
    | none => if r = VF then (flagOf i s).getD s.V[r] else s.V[r]

/-- `I` after an instruction that does not fault (R16, R121). -/
def indexAfter (i : Instr) (s : State) : Word :=
  match i with
  | .ldI nnn => BitVec.ofNat 16 nnn.toNat
  | .addI x => BitVec.ofNat 16 ((s.I.toNat + s.V[x].toNat) % 65536)
  | .ldF x => BitVec.ofNat 16 (s.V[x].toNat * 5)
  | .stRegs x => BitVec.ofNat 16 (s.I.toNat + x.val + 1)
  | .ldRegs x => BitVec.ofNat 16 (s.I.toNat + x.val + 1)
  | _ => s.I

/-- `sp` after an instruction that does not fault (R17). -/
def spAfter (i : Instr) (s : State) : Nat :=
  match i with
  | .call _ => s.sp.val + 1
  | .ret => s.sp.val - 1
  | _ => s.sp.val

/-- Stack entry `k` after an instruction that does not fault: CALL writes `stack[sp]`, nothing else writes one (R17). -/
def stackAfter (i : Instr) (s : State) (k : Fin 16) : Word :=
  match i with
  | .call _ => if k.val = s.sp.val then s.pc + 2#16 else s.stack[k]
  | _ => s.stack[k]

/-- The byte at address `a` after an instruction that does not fault: only LD_B and ST_REGS store (R10, R40). -/
def byteAfter (i : Instr) (s : State) (a : Nat) : Byte :=
  match i with
  | .ldB x =>
    if a = s.I.toNat then BitVec.ofNat 8 (s.V[x].toNat / 100)
    else if a = s.I.toNat + 1 then BitVec.ofNat 8 (s.V[x].toNat / 10 % 10)
    else if a = s.I.toNat + 2 then BitVec.ofNat 8 (s.V[x].toNat % 10)
    else s.byteAt a
  | .stRegs x =>
    if s.I.toNat ≤ a ∧ a ≤ s.I.toNat + x.val then s.V.toList.getD (a - s.I.toNat) 0#8 else s.byteAt a
  | _ => s.byteAt a

/-- Display cell `c` after an instruction that does not fault: only CLS and DRW write the display (R20). -/
def cellAfter (i : Instr) (s : State) (c : Fin 2048) : Bool :=
  match i with
  | .cls => false
  | .drw x y n => xor (s.cell c) (drawnAt s x y n c.val)
  | _ => s.cell c

/-- The dirty flag after an instruction that does not fault: DRW sets it, no instruction clears it (R21). -/
def dirtyAfter (i : Instr) (s : State) : Bool :=
  match i with
  | .drw _ _ _ => true
  | _ => s.isDrawing

/-- `DT` after an instruction: LD_DT_VX writes it, no other does (R18). -/
def delayAfter (i : Instr) (s : State) : Byte :=
  match i with
  | .ldDtVx x => s.V[x]
  | _ => s.delayTimer

/-- `ST` after an instruction: LD_ST_VX writes it, no other does (R18). -/
def soundAfter (i : Instr) (s : State) : Byte :=
  match i with
  | .ldStVx x => s.V[x]
  | _ => s.soundTimer

/-- How many random bytes have been consumed: one more after an RND, no more after any other instruction (R128). -/
def drawsAfter (i : Instr) (s : State) : Nat :=
  match i with
  | .rnd _ _ => s.draws + 1
  | _ => s.draws

end Sys2Proof.Safety
end

