-- ==== Sys2Proof/Certificates/Slice0/Obligations.lean ====
section
/-! DEFINITION. What is claimed of the machine: statements only. The column-by-column tables they name (`pcAfter`,
`regAfter`, ...) are Safety.lean's. Arithmetic in the statements is on numbers (`toNat`, `BitVec.ofNat`), as the rules
write it. A docstring that names a decision `D<n>` says that a clause rests on that choice of 92_eei_decisions, the spec's
own where its source is silent, with the log entry that follows it. -/

open Sys2Proof Sys2Proof.Machine Sys2Proof.Safety

/-! ### Encoding -/

/-- R60, R61, R62, R70: no bit of an encoding is dropped, for all 34 instructions at every operand value, as words and
as bytes of memory. The order of the two bytes is the spec's D1 (log entry 10); the `Y` that SHR and SHL ignore is an
operand like any other (log entry 9). -/
def Obligations.DecodeOfEncodeIsIdentity : Prop :=
  (∀ i : Instr, decode (encode i) = .ok i) ∧
  ∀ (i : Instr) (rest : List Byte), decodeBytes (encodeBytes i ++ rest) = .ok (i, rest)

/-- R70, R83: each defined word is one instruction, and that instruction encodes to the word. An instruction here is an
`Instr` with every field its word carries, the `Y` of SHR and SHL among them (log entry 9): by R71 the sixteen SHR words
that differ only there mean the same, and so do the sixteen SHL words. Which words of families 0, 5 and 9 are defined is
the spec's D2 and D3 (log entry 11). -/
def Obligations.EncodeOfDecodeIsIdentity : Prop :=
  ∀ (oc : Word) (i : Instr), decode oc = .ok i → encode i = oc

/-- R70: "a word `oc` is the instruction of a row when `oc AND mask = match`. No two rows overlap". That rows 1, 2, 7 and
19 fix all the bits they fix is the spec's D2 and D3 (log entry 11). -/
def Obligations.DecodeFollowsOpcodeMap : Prop :=
  (∀ (oc : Word) (m : Mnemonic), oc &&& rowMask m = rowMatch m ↔ ∃ i, decode oc = .ok i ∧ i.mnemonic = m) ∧
  ∀ (oc : Word) (m m' : Mnemonic), oc &&& rowMask m = rowMatch m → oc &&& rowMask m' = rowMatch m' → m = m'

/-- R72: "The unknown words are exactly:" this list, for families 0, 5 and 9 by the spec's D2 and D3 (log entry 11). -/
def Obligations.UnknownWordsAreExactlyThese : Prop :=
  ∀ oc : Word, (∃ g, decode oc = .error g) ↔
    (oc.toNat / 4096 = 0 ∧ oc.toNat ≠ 0x00E0 ∧ oc.toNat ≠ 0x00EE) ∨
    ((oc.toNat / 4096 = 5 ∨ oc.toNat / 4096 = 9) ∧ oc.toNat % 16 ≠ 0) ∨
    (oc.toNat / 4096 = 8 ∧ oc.toNat % 16 ∈ [8, 9, 0xA, 0xB, 0xC, 0xD, 0xF]) ∨
    (oc.toNat / 4096 = 0xE ∧ oc.toNat % 256 ∉ [0x9E, 0xA1]) ∨
    (oc.toNat / 4096 = 0xF ∧ oc.toNat % 256 ∉ [0x07, 0x0A, 0x15, 0x18, 0x1E, 0x29, 0x33, 0x55, 0x65])

/-- R61: the operand fields by their formulas. -/
def Obligations.FieldsByShiftAndMask : Prop :=
  ∀ oc : Word,
    (family oc).toNat = (oc >>> 12).toNat ∧
    (fieldX oc).val = ((oc >>> 8) &&& 0xF#16).toNat ∧
    (fieldY oc).val = ((oc >>> 4) &&& 0xF#16).toNat ∧
    (fieldN oc).toNat = (oc &&& 0xF#16).toNat ∧
    (fieldNN oc).toNat = (oc &&& 0xFF#16).toNat ∧
    (fieldNNN oc).toNat = (oc &&& 0xFFF#16).toNat

/-- The decoding table T-K of 95_test_vectors: a few words, each with the instruction and operands the spec gives it,
and words that are none (R72). That 0x5121 and 0x9001 are none is the spec's D3 (log entry 11). -/
def Obligations.SpecWordsDecode : Prop :=
  decode 0x00E0#16 = .ok .cls ∧ decode 0x00EE#16 = .ok .ret ∧ decode 0x1ABC#16 = .ok (.jp 0xABC#12) ∧
  decode 0x3A42#16 = .ok (.seNn 10 0x42#8) ∧ decode 0x8AB4#16 = .ok (.addVy 10 11) ∧
  decode 0x9120#16 = .ok (.sneVy 1 2) ∧ decode 0xC13C#16 = .ok (.rnd 1 0x3C#8) ∧
  decode 0xD5C3#16 = .ok (.drw 5 12 3) ∧ decode 0xEFA1#16 = .ok (.sknp 15) ∧ decode 0xF765#16 = .ok (.ldRegs 7) ∧
  decode 0x0000#16 = .error .family0 ∧ decode 0x5121#16 = .error .family5 ∧ decode 0x800F#16 = .error .family8 ∧
  decode 0x9001#16 = .error .family9 ∧ decode 0xE0A0#16 = .error .familyE ∧ decode 0xF066#16 = .error .familyF

/-! ### The step -/

/-- R80, R83, R86: when the bytes at `pc` decode to an instruction, a step of a core that is not halted is `exec` of that
instruction, with nothing around it (`exec` makes the pre-increment itself). The byte order is the spec's D1 (log entry
10). -/
def Obligations.StepRunsDecodedInstruction : Prop :=
  ∀ (s : State) (i : Instr), s.fault = none → s.pc.toNat ≤ 0xFFE →
    decode (wordOfBytes (s.byteAt s.pc.toNat) (s.byteAt (s.pc.toNat + 1))) = .ok i → step s = exec i s

/-- R81: the word is `memory[pc] * 256 + memory[pc + 1]` at any parity of `pc`; with `pc > 0xFFE` the fetch raises
`MemOutOfRange` and no instruction executes. By the spec's D1, D5 and D7 (log entries 10, 13, 15). -/
def Obligations.FetchIsBigEndianOrFaults : Prop :=
  ∀ s : State,
    (s.pc.toNat ≤ 0xFFE → ∃ oc, s.fetch = .ok oc ∧
      oc.toNat = (s.byteAt s.pc.toNat).toNat * 256 + (s.byteAt (s.pc.toNat + 1)).toNat) ∧
    (s.pc.toNat > 0xFFE → s.fault = none →
      step s = .next { s with fault := some (.memOutOfRange (max s.pc.toNat 0x1000)) })

/-- R84: an unknown word advances `pc` by 2, emits the diagnostic, and changes nothing else. That the output is recorded
in `diags` is the model's choice (D18, log entry 3). -/
def Obligations.UnknownWordIsNoOpWithDiagnostic : Prop :=
  ∀ (s : State) (oc : Word) (g : UnknownGroup), s.fault = none → s.fetch = .ok oc → decode oc = .error g →
    step s = .next { s with pc := s.pc + 2#16, diags := s.diags ++ [oc] }

/-- R85: a halted core does nothing, however many steps are taken (the spec's D6, log entry 14). -/
def Obligations.HaltedCoreStaysAsItIs : Prop :=
  ∀ (s : State) (n : Nat), s.fault ≠ none → step s = .next s ∧ steps n s = .next s

/-- The whole machine (R84, R184, R185, 90_conflicts C7): every instruction and every step, from every state, answers a
next state; nothing is refused and nothing is left without an effect. That a fault is a next state with its latch set
is the spec's D6 and log entry 4. -/
def Obligations.EveryStepAnswersNext : Prop :=
  (∀ (i : Instr) (s : State), ∃ t, exec i s = .next t) ∧ ∀ s : State, ∃ t, step s = .next t

/-- R180 to R184, R186, for all 34 instructions: under its fault condition an instruction latches that fault and changes
nothing else; otherwise it completes and leaves the latch alone. The latch and `MemOutOfRange` are the spec's D5 and D6
(log entries 13, 14). -/
def Obligations.InstructionsFaultExactlyWhereTabled : Prop :=
  ∀ (i : Instr) (s : State),
    (∀ f, faultOf i s = some f → exec i s = .next { s with fault := some f }) ∧
    (faultOf i s = none → ∃ t, exec i s = .next t ∧ t.fault = s.fault)

/-- R183, R184 over a whole step: which fault a step of a running core ends with, and that a step that faults changes
nothing but the latch (the spec's D5, D6, log entries 13, 14). The word whose fault it is has the byte order of the
spec's D1 (log entry 10). -/
def Obligations.StepFaultIsPrecise : Prop :=
  ∀ (s t : State), s.fault = none → step s = .next t →
    t.fault = (if s.pc.toNat > 0xFFE then some (.memOutOfRange (max s.pc.toNat 0x1000))
      else match decode (wordOfBytes (s.byteAt s.pc.toNat) (s.byteAt (s.pc.toNat + 1))) with
        | .ok i => faultOf i s
        | .error _ => none) ∧
    (t.fault ≠ none → t = { s with fault := t.fault })

/-- R87: "a jump to itself: an instruction `JP a` at address `a`, after which every `Step` leaves the whole state
unchanged" (the end-of-run convention itself is the spec's D22). -/
def Obligations.SelfJumpLeavesStateUnchanged : Prop :=
  ∀ (s : State) (a : BitVec 12) (n : Nat), s.fault = none → s.pc.toNat = a.toNat → a.toNat ≤ 0xFFE →
    s.fetch = .ok (encode (.jp a)) → steps n s = .next s

/-! ### The state, column by column, over all instructions -/

/-- R15: `pc` after every instruction, after an unknown word and after a fault; modulo 65536 and of any parity by the
spec's D7 and D8 (log entry 15), unchanged by a fault by D6 (14), key codes above 15 by D11 (17). -/
def Obligations.ProgramCounterAfterEveryInstruction : Prop :=
  (∀ (i : Instr) (s : State), faultOf i s = none → ∃ t, exec i s = .next t ∧ t.pc = pcAfter i s) ∧
  (∀ (i : Instr) (s : State), faultOf i s ≠ none → ∃ t, exec i s = .next t ∧ t.pc = s.pc) ∧
  ∀ (oc : Word) (g : UnknownGroup) (s : State), decode oc = .error g →
    ∃ t, execWord oc s = .next t ∧ t.pc = s.pc + 2#16

/-- R11, R12, R110, R121: every general register after every instruction, VF as result and VF as flag included.
Operands latched by the spec's D4 (log entry 12), DRW's wrap and dropped bits by D9 and D10 (16); RND's byte is free
(entry 2). -/
def Obligations.RegistersAfterEveryInstruction : Prop :=
  ∀ (i : Instr) (s : State), faultOf i s = none → ∃ t, exec i s = .next t ∧ ∀ r : Reg, t.V[r] = regAfter i s r

/-- R16, R121: the index register after every instruction, modulo 65536 by the spec's D8 (log entry 15). -/
def Obligations.IndexRegisterAfterEveryInstruction : Prop :=
  ∀ (i : Instr) (s : State), faultOf i s = none → ∃ t, exec i s = .next t ∧ t.I = indexAfter i s

/-- R17: stack depth and every stack entry after every instruction; RET does not clear the entry it read. Entries of 16
bits are the spec's D20 (log entry 19). -/
def Obligations.StackAfterEveryInstruction : Prop :=
  ∀ (i : Instr) (s : State), faultOf i s = none →
    ∃ t, exec i s = .next t ∧ t.sp.val = spAfter i s ∧ ∀ k : Fin 16, t.stack[k] = stackAfter i s k

/-- R40, R43, R48: every byte of memory after every instruction. `Canonical`, the model's
own list form (log entry 5), is kept by every event (`EveryEventKeepsMemoryCanonical`). -/
def Obligations.MemoryAfterEveryInstruction : Prop :=
  ∀ (i : Instr) (s : State), Canonical s → faultOf i s = none →
    ∃ t, exec i s = .next t ∧ ∀ a : Nat, t.byteAt a = byteAfter i s a

/-- R20, R21, R137, R140: every display cell and the dirty flag after every instruction. By the spec's D4, D9, D10 and
D12 (log entries 12, 16, 18). -/
def Obligations.DisplayAfterEveryInstruction : Prop :=
  ∀ (i : Instr) (s : State), faultOf i s = none →
    ∃ t, exec i s = .next t ∧ (∀ c : Fin 2048, t.cell c = cellAfter i s c) ∧ t.isDrawing = dirtyAfter i s

/-- R18, R19, R128, R190: the timers change only by LD_DT_VX and LD_ST_VX, no instruction writes `keys`, exactly one
random byte is consumed by RND and none by any other instruction, and no defined instruction emits a diagnostic (counted
and recorded in the model's own fields, log entries 2 and 3). -/
def Obligations.TimersKeysInputsAfterEveryInstruction : Prop :=
  ∀ (i : Instr) (s : State), faultOf i s = none →
    ∃ t, exec i s = .next t ∧ t.delayTimer = delayAfter i s ∧ t.soundTimer = soundAfter i s ∧ t.keys = s.keys ∧
      t.draws = drawsAfter i s ∧ t.diags = s.diags

/-! ### Instruction by instruction -/

/-- R90. That CLS leaves the dirty flag alone is the spec's D12 (log entry 18). -/
def Obligations.ClsTurnsEveryCellOff : Prop :=
  decode 0x00E0#16 = .ok .cls ∧
  ∀ s : State, ∃ t, exec .cls s = .next t ∧ (∀ c : Fin 2048, t.cell c = false) ∧
    t = { s with pc := s.pc + 2#16, display := t.display }

/-- R91, R181. The latch is the spec's D6 (log entry 14). -/
def Obligations.RetPopsOrUnderflows : Prop :=
  decode 0x00EE#16 = .ok .ret ∧
  (∀ (s : State) (h : 0 < s.sp.val), exec .ret s = .next { s with
    sp := ⟨s.sp.val - 1, by omega⟩, pc := s.stack[s.sp.val - 1]'(by omega) }) ∧
  ∀ s : State, s.sp.val = 0 → exec .ret s = .next { s with fault := some .stackUnderflow }

/-- R93, R182. The latch is the spec's D6 (log entry 14), the entry's 16 bits D20 (19). -/
def Obligations.CallPushesOrOverflows : Prop :=
  ∀ nnn : BitVec 12,
  decode (0x2#4 ++ nnn) = .ok (.call nnn) ∧
  (∀ (s : State) (h : s.sp.val < 16), exec (.call nnn) s = .next { s with
    stack := s.stack.set s.sp.val (s.pc + 2#16) h, sp := ⟨s.sp.val + 1, by omega⟩,
    pc := BitVec.ofNat 16 nnn.toNat }) ∧
  ∀ s : State, s.sp.val = 16 → exec (.call nnn) s = .next { s with fault := some .stackOverflow }

/-- R92, R127: the whole next state; `NNN` of any parity, the sum of JP_V0 not masked. -/
def Obligations.JumpsAssignPc : Prop :=
  ∀ (nnn : BitVec 12) (s : State),
    decode (0x1#4 ++ nnn) = .ok (.jp nnn) ∧ decode (0xB#4 ++ nnn) = .ok (.jpV0 nnn) ∧
    exec (.jp nnn) s = .next { s with pc := BitVec.ofNat 16 nnn.toNat } ∧
    exec (.jpV0 nnn) s = .next { s with pc := BitVec.ofNat 16 (nnn.toNat + s.V[0].toNat) } ∧
    nnn.toNat + s.V[0].toNat ≤ 0x10FE

/-- R95: "a CALL fetched at `a` followed, at any later time with the same stack depth, by a RET, continues at `a + 2`",
where the entry the CALL wrote still stands (which the rule leaves to "the same stack depth"). -/
def Obligations.ReturnContinuesAfterCall : Prop :=
  ∀ (nnn : BitVec 12) (s t u : State), s.sp.val < 16 → exec (.call nnn) s = .next t → u.sp = t.sp →
    (∀ k : Fin 16, k.val < t.sp.val → u.stack[k] = t.stack[k]) →
    ∃ w, exec .ret u = .next w ∧ w.pc = s.pc + 2#16 ∧ w.sp = s.sp

/-- R100, R101, R102, R125: the whole next state of the four register skips. -/
def Obligations.RegisterSkips : Prop :=
  ∀ (x y : Reg) (nn : Byte) (s : State),
    decode (0x3#4 ++ regBits x ++ nn) = .ok (.seNn x nn) ∧ decode (0x4#4 ++ regBits x ++ nn) = .ok (.sneNn x nn) ∧
    decode (0x5#4 ++ regBits x ++ regBits y ++ 0x0#4) = .ok (.seVy x y) ∧
    decode (0x9#4 ++ regBits x ++ regBits y ++ 0x0#4) = .ok (.sneVy x y) ∧
    exec (.seNn x nn) s = .next { s with pc := if s.V[x] = nn then s.pc + 4#16 else s.pc + 2#16 } ∧
    exec (.sneNn x nn) s = .next { s with pc := if s.V[x] ≠ nn then s.pc + 4#16 else s.pc + 2#16 } ∧
    exec (.seVy x y) s = .next { s with pc := if s.V[x] = s.V[y] then s.pc + 4#16 else s.pc + 2#16 } ∧
    exec (.sneVy x y) s = .next { s with pc := if s.V[x] ≠ s.V[y] then s.pc + 4#16 else s.pc + 2#16 }

/-- R150, R151, R152: the key named by the VALUE of `V[X]`; a code above 15 is not pressed, so SKP never skips on it and
SKNP always does (the spec's D11, log entry 17). -/
def Obligations.KeySkips : Prop :=
  ∀ (x : Reg) (s : State),
    decode (0xE#4 ++ regBits x ++ 0x9E#8) = .ok (.skp x) ∧ decode (0xE#4 ++ regBits x ++ 0xA1#8) = .ok (.sknp x) ∧
    (∀ k : Fin 16, s.V[x].toNat = k.val →
      exec (.skp x) s = .next { s with pc := if s.keys[k] then s.pc + 4#16 else s.pc + 2#16 } ∧
      exec (.sknp x) s = .next { s with pc := if s.keys[k] then s.pc + 2#16 else s.pc + 4#16 }) ∧
    (s.V[x].toNat > 15 →
      exec (.skp x) s = .next { s with pc := s.pc + 2#16 } ∧
      exec (.sknp x) s = .next { s with pc := s.pc + 4#16 })

/-- R103, R104: no flag is written; `X = 15` is an ordinary destination. -/
def Obligations.LoadByteAndAddByte : Prop :=
  ∀ (x : Reg) (nn : Byte) (s : State),
    decode (0x6#4 ++ regBits x ++ nn) = .ok (.ldNn x nn) ∧ decode (0x7#4 ++ regBits x ++ nn) = .ok (.addNn x nn) ∧
    exec (.ldNn x nn) s = .next { s with pc := s.pc + 2#16, V := s.V.set x.val nn x.isLt } ∧
    exec (.addNn x nn) s = .next { s with
      pc := s.pc + 2#16, V := s.V.set x.val (BitVec.ofNat 8 ((s.V[x].toNat + nn.toNat) % 256)) x.isLt }

/-- R111, R112, R113, R114: only `V[X]` and `pc` change; VF is not written as a flag. -/
def Obligations.MoveAndLogic : Prop :=
  ∀ (x y : Reg) (s : State),
    decode (0x8#4 ++ regBits x ++ regBits y ++ 0x0#4) = .ok (.ldVy x y) ∧
    decode (0x8#4 ++ regBits x ++ regBits y ++ 0x1#4) = .ok (.orVy x y) ∧
    decode (0x8#4 ++ regBits x ++ regBits y ++ 0x2#4) = .ok (.andVy x y) ∧
    decode (0x8#4 ++ regBits x ++ regBits y ++ 0x3#4) = .ok (.xorVy x y) ∧
    exec (.ldVy x y) s = .next { s with pc := s.pc + 2#16, V := s.V.set x.val s.V[y] x.isLt } ∧
    exec (.orVy x y) s = .next { s with pc := s.pc + 2#16, V := s.V.set x.val (s.V[x] ||| s.V[y]) x.isLt } ∧
    exec (.andVy x y) s = .next { s with pc := s.pc + 2#16, V := s.V.set x.val (s.V[x] &&& s.V[y]) x.isLt } ∧
    exec (.xorVy x y) s = .next { s with pc := s.pc + 2#16, V := s.V.set x.val (s.V[x] ^^^ s.V[y]) x.isLt }

/-- R115: flag first, sum second, both from the operands as they were; that the sum too takes them so (seen where `X` or
`Y` is 15) is the spec's D4 (log entry 12). -/
def Obligations.AddSetsCarryThenSum : Prop :=
  ∀ (x y : Reg) (s : State),
    decode (0x8#4 ++ regBits x ++ regBits y ++ 0x4#4) = .ok (.addVy x y) ∧
    exec (.addVy x y) s = .next { s with
      pc := s.pc + 2#16
      V := (s.V.set 15 (if s.V[x].toNat + s.V[y].toNat > 255 then 1#8 else 0#8)).set x.val
        (BitVec.ofNat 8 ((s.V[x].toNat + s.V[y].toNat) % 256)) x.isLt }

/-- R116, R118: the flag is the STRICT comparison, 0 when the operands are equal; the difference wraps. Operands
latched by the spec's D4 (log entry 12). -/
def Obligations.SubtractionsSetStrictFlag : Prop :=
  ∀ (x y : Reg) (s : State),
    decode (0x8#4 ++ regBits x ++ regBits y ++ 0x5#4) = .ok (.sub x y) ∧
    decode (0x8#4 ++ regBits x ++ regBits y ++ 0x7#4) = .ok (.subn x y) ∧
    exec (.sub x y) s = .next { s with
      pc := s.pc + 2#16
      V := (s.V.set 15 (if s.V[x].toNat > s.V[y].toNat then 1#8 else 0#8)).set x.val
        (BitVec.ofNat 8 ((s.V[x].toNat + 256 - s.V[y].toNat) % 256)) x.isLt } ∧
    exec (.subn x y) s = .next { s with
      pc := s.pc + 2#16
      V := (s.V.set 15 (if s.V[y].toNat > s.V[x].toNat then 1#8 else 0#8)).set x.val
        (BitVec.ofNat 8 ((s.V[y].toNat + 256 - s.V[x].toNat) % 256)) x.isLt }

/-- R117, R119, R71: SHR's flag is the bit shifted out, SHL's the high nibble in place; `Y` is ignored for all its
sixteen values. The operand latched by the spec's D4 (log entry 12). -/
def Obligations.ShiftsIgnoreYAndSetFlag : Prop :=
  ∀ (x y : Reg) (s : State),
    decode (0x8#4 ++ regBits x ++ regBits y ++ 0x6#4) = .ok (.shr x y) ∧
    decode (0x8#4 ++ regBits x ++ regBits y ++ 0xE#4) = .ok (.shl x y) ∧
    exec (.shr x y) s = .next { s with
      pc := s.pc + 2#16
      V := (s.V.set 15 (BitVec.ofNat 8 (s.V[x].toNat % 2))).set x.val (BitVec.ofNat 8 (s.V[x].toNat / 2)) x.isLt } ∧
    exec (.shl x y) s = .next { s with
      pc := s.pc + 2#16
      V := (s.V.set 15 (s.V[x] &&& 0xF0#8)).set x.val (BitVec.ofNat 8 (s.V[x].toNat * 2 % 256)) x.isLt }

/-- R126, R161: the whole next state. -/
def Obligations.IndexLoads : Prop :=
  ∀ (nnn : BitVec 12) (x : Reg) (s : State),
    decode (0xA#4 ++ nnn) = .ok (.ldI nnn) ∧ decode (0xF#4 ++ regBits x ++ 0x29#8) = .ok (.ldF x) ∧
    exec (.ldI nnn) s = .next { s with pc := s.pc + 2#16, I := BitVec.ofNat 16 nnn.toNat } ∧
    exec (.ldF x) s = .next { s with pc := s.pc + 2#16, I := BitVec.ofNat 16 (s.V[x].toNat * 5) }

/-- R160: VF the flag of the exact sum, `I` the sum on 16 bits; with `X = 15` the addend is the old VF. By the
spec's D4 and D8 (log entries 12, 15). -/
def Obligations.AddIndexSetsRangeFlag : Prop :=
  ∀ (x : Reg) (s : State),
    decode (0xF#4 ++ regBits x ++ 0x1E#8) = .ok (.addI x) ∧
    exec (.addI x) s = .next { s with
      pc := s.pc + 2#16
      V := s.V.set 15 (if s.I.toNat + s.V[x].toNat > 0xFFF then 1#8 else 0#8)
      I := BitVec.ofNat 16 ((s.I.toNat + s.V[x].toNat) % 65536) }

/-- R128: one free byte is consumed, whatever the mask; the result has no bit the mask lacks. The drawn byte is the free
value `Config.randomByte s.draws`, of which nothing is known (D24, log entry 2). -/
def Obligations.RndMasksAFreeByte : Prop :=
  ∀ (x : Reg) (nn : Byte) (s : State),
    decode (0xC#4 ++ regBits x ++ nn) = .ok (.rnd x nn) ∧
    ∃ r : Byte, exec (.rnd x nn) s = .next { s with
      pc := s.pc + 2#16, V := s.V.set x.val (r &&& nn) x.isLt, draws := s.draws + 1 } ∧
    r = Config.randomByte s.draws ∧ (r &&& nn) &&& ~~~nn = 0#8

/-- R156, R158, R159: the whole next state. -/
def Obligations.TimerTransfers : Prop :=
  ∀ (x : Reg) (s : State),
    decode (0xF#4 ++ regBits x ++ 0x07#8) = .ok (.ldVxDt x) ∧ decode (0xF#4 ++ regBits x ++ 0x15#8) = .ok (.ldDtVx x) ∧
    decode (0xF#4 ++ regBits x ++ 0x18#8) = .ok (.ldStVx x) ∧
    exec (.ldVxDt x) s = .next { s with pc := s.pc + 2#16, V := s.V.set x.val s.delayTimer x.isLt } ∧
    exec (.ldDtVx x) s = .next { s with pc := s.pc + 2#16, delayTimer := s.V[x] } ∧
    exec (.ldStVx x) s = .next { s with pc := s.pc + 2#16, soundTimer := s.V[x] }

/-- R157: the least pressed key, or the whole state as before. -/
def Obligations.KeyWaitPolls : Prop :=
  ∀ (x : Reg) (s : State),
    decode (0xF#4 ++ regBits x ++ 0x0A#8) = .ok (.ldVxK x) ∧
    (∀ k : Fin 16, s.keys[k] = true → (∀ j : Fin 16, j < k → s.keys[j] = false) →
      exec (.ldVxK x) s = .next { s with
        pc := s.pc + 2#16, V := s.V.set x.val (BitVec.ofNat 8 k.val) x.isLt }) ∧
    ((∀ k : Fin 16, s.keys[k] = false) → exec (.ldVxK x) s = .next s)

/-- R135 to R140, R143: DRW where its sprite lies in memory: each cell XORed exactly where a set sprite bit lands, VF the
collision, the dirty flag set, and nothing else changed but `pc`. The coordinates are those VF held before the draw where
`X` or `Y` is 15. By the spec's D4, D9 and D10 (log entries 12, 16). -/
def Obligations.DrawTogglesExactlyTheSprite : Prop :=
  ∀ (x y : Reg) (n : Fin 16) (s : State),
    decode (0xD#4 ++ regBits x ++ regBits y ++ BitVec.ofFin (w := 4) n) = .ok (.drw x y n) ∧
    (n.val = 0 ∨ s.I.toNat + n.val - 1 ≤ 0xFFF →
      ∃ t, exec (.drw x y n) s = .next t ∧
        (∀ c : Fin 2048, t.cell c = xor (s.cell c) (drawnAt s x y n c.val)) ∧
        t = { s with
          pc := s.pc + 2#16
          V := s.V.set 15 (if collides s x y n then 1#8 else 0#8)
          display := t.display
          isDrawing := true })

/-- R141, R142: a sprite byte above 0xFFF faults with nothing written; with `N = 0` no byte is read, whatever `I` holds,
no cell changes, VF becomes 0 and the dirty flag 1. The fault is the spec's D5 (log entry 13). -/
def Obligations.DrawRangeCheckAndZeroRows : Prop :=
  ∀ (x y : Reg) (s : State),
    (∀ n : Fin 16, n.val ≥ 1 → s.I.toNat + n.val - 1 > 0xFFF →
      exec (.drw x y n) s = .next { s with fault := some (.memOutOfRange (max s.I.toNat 0x1000)) }) ∧
    exec (.drw x y 0) s = .next { s with pc := s.pc + 2#16, V := s.V.set 15 0#8, isDrawing := true }

/-- R138, R140: drawing the same sprite at the same place twice restores the display; the second draw reports a collision
exactly where the first one lit a cell. (R138 says of a blank display that it does "if the sprite has any set bit that
was drawn"; on a lit one the collision rule, stated here, is what decides.) Where a set sprite bit is drawn, with the
single wrap and the dropped bits of R136 and R137, is the spec's D9 and D10 (log entry 16). `X` and `Y` are not 15, since
VF changes between the draws. -/
def Obligations.DrawTwiceRestoresDisplay : Prop :=
  ∀ (x y : Reg) (n : Fin 16) (s t u : State), x ≠ VF → y ≠ VF → faultOf (.drw x y n) s = none →
    exec (.drw x y n) s = .next t → exec (.drw x y n) t = .next u →
    u.display = s.display ∧
    (u.V[VF] = 1#8 ↔ ∃ c : Fin 2048, drawnAt s x y n c.val = true ∧ s.cell c = false)

/-- R162: three decimal digits, `I` unchanged, and no byte written where the range check fails (the spec's
D5, log entry 13). `Canonical` is the model's own list form (log entry 5). -/
def Obligations.StoreDigits : Prop :=
  ∀ (x : Reg) (s : State),
    decode (0xF#4 ++ regBits x ++ 0x33#8) = .ok (.ldB x) ∧
    (Canonical s → s.I.toNat + 2 ≤ 0xFFF → ∃ t, exec (.ldB x) s = .next t ∧
      (t.byteAt s.I.toNat).toNat = s.V[x].toNat / 100 ∧
      (t.byteAt (s.I.toNat + 1)).toNat = s.V[x].toNat / 10 % 10 ∧
      (t.byteAt (s.I.toNat + 2)).toNat = s.V[x].toNat % 10 ∧
      (∀ a : Nat, a < s.I.toNat ∨ s.I.toNat + 2 < a → t.byteAt a = s.byteAt a) ∧
      t = { s with pc := s.pc + 2#16, memory := t.memory }) ∧
    (s.I.toNat + 2 > 0xFFF →
      exec (.ldB x) s = .next { s with fault := some (.memOutOfRange (max s.I.toNat 0x1000)) })

/-- R163: `V[0]` to `V[X]` stored from `I` up, every other byte unchanged, `I` advanced by `X + 1`; and nothing written
where the range check fails (the spec's D5, log entry 13). `Canonical` is the model's own list form (log entry 5). -/
def Obligations.StoreRegisters : Prop :=
  ∀ (x : Reg) (s : State),
    decode (0xF#4 ++ regBits x ++ 0x55#8) = .ok (.stRegs x) ∧
    (Canonical s → s.I.toNat + x.val ≤ 0xFFF → ∃ t, exec (.stRegs x) s = .next t ∧
      (∀ k : Reg, k ≤ x → t.byteAt (s.I.toNat + k.val) = s.V[k]) ∧
      (∀ a : Nat, a < s.I.toNat ∨ s.I.toNat + x.val < a → t.byteAt a = s.byteAt a) ∧
      t = { s with pc := s.pc + 2#16, I := BitVec.ofNat 16 (s.I.toNat + x.val + 1), memory := t.memory }) ∧
    (s.I.toNat + x.val > 0xFFF →
      exec (.stRegs x) s = .next { s with fault := some (.memOutOfRange (max s.I.toNat 0x1000)) })

/-- R164: `V[0]` to `V[X]` loaded, the registers above `X` and all memory unchanged, `I` advanced by `X + 1`; and nothing
loaded where the range check fails (the spec's D5, log entry 13). -/
def Obligations.LoadRegisters : Prop :=
  ∀ (x : Reg) (s : State),
    decode (0xF#4 ++ regBits x ++ 0x65#8) = .ok (.ldRegs x) ∧
    (s.I.toNat + x.val ≤ 0xFFF → ∃ t, exec (.ldRegs x) s = .next t ∧
      (∀ k : Reg, k ≤ x → t.V[k] = s.byteAt (s.I.toNat + k.val)) ∧ (∀ k : Reg, x < k → t.V[k] = s.V[k]) ∧
      t = { s with pc := s.pc + 2#16, I := BitVec.ofNat 16 (s.I.toNat + x.val + 1), V := t.V }) ∧
    (s.I.toNat + x.val > 0xFFF →
      exec (.ldRegs x) s = .next { s with fault := some (.memOutOfRange (max s.I.toNat 0x1000)) })

/-- R163, R164 (and the source's spill and fill example, S7): registers stored and then loaded from the same `I` come
back, whatever the other registers held meanwhile. `Canonical` is the model's own list form (log entry 5). -/
def Obligations.StoreThenLoadRestoresRegisters : Prop :=
  ∀ (x : Reg) (s t u : State), Canonical s → s.I.toNat + x.val ≤ 0xFFF → exec (.stRegs x) s = .next t →
    u.memory = t.memory → u.I = s.I →
    ∃ w, exec (.ldRegs x) u = .next w ∧ (∀ k : Reg, k ≤ x → w.V[k] = s.V[k]) ∧ w.I = t.I

/-- R53: a stored instruction is fetched by the very next step that comes to it, with no action by the program. Byte
order by the spec's D1 (log entry 10); `Canonical` is the model's own list form (log entry 5). -/
def Obligations.StoredInstructionIsFetched : Prop :=
  ∀ (x : Reg) (s t u : State) (k : Nat) (h : k + 1 ≤ x.val), Canonical s → s.I.toNat + x.val ≤ 0xFFF →
    exec (.stRegs x) s = .next t → u.memory = t.memory → u.pc.toNat = s.I.toNat + k →
    u.fetch = .ok (wordOfBytes (s.V[k]'(by omega)) (s.V[k + 1]'(by omega)))

/-! ### Host events and reset -/

/-- R26, R210: every piece of state after reset, and every byte of memory: the font table at 0x000 to 0x04F, 0x00
everywhere else. That the bytes of `fontTable` are the source's is the model's presumption (log entry 1); nothing here
says what they are. `I`, `sp`, the dirty flag and the latch by the spec's D13 (log entry 18). That
the reading helper gives 0x00 at an address above 0xFFF, which no instruction reads, is log entry 5. -/
def Obligations.ResetValues : Prop :=
  (∀ r : Reg, State.reset.V[r] = 0x00#8) ∧ State.reset.I = 0x0000#16 ∧ State.reset.pc = 0x0200#16 ∧
  (∀ k : Fin 16, State.reset.stack[k] = 0x0000#16) ∧ State.reset.sp = 0 ∧ State.reset.delayTimer = 0x00#8 ∧
  State.reset.soundTimer = 0x00#8 ∧ (∀ k : Fin 16, State.reset.keys[k] = false) ∧
  (∀ c : Fin 2048, State.reset.cell c = false) ∧ State.reset.isDrawing = false ∧ State.reset.fault = none ∧
  fontTable.length = 80 ∧ (∀ a : Nat, ∀ h : a < fontTable.length, State.reset.byteAt a = fontTable[a]) ∧
  ∀ a : Nat, 0x050 ≤ a → State.reset.byteAt a = 0x00#8

/-- R210, R185: `Reset` in any state, a faulted one too, leaves the reset state; only the model's own record of inputs
taken and outputs emitted goes on (log entry 7). That the session is then in the boot phase is the model's choice:
`Session.phase` is its own (log entry 8) and holds the window in which R214 lets a program be loaded, the spec's D19 (log
entry 19). The reset state's font bytes are presumed (log entry 1), its `I`, `sp`, dirty flag and latch the spec's D13
(log entry 18). -/
def Obligations.ResetErasesEverything : Prop :=
  ∀ (ss : Session), ∃ m : State, Event.reset.apply ss = .next { machine := m, phase := .boot } ∧
    m = { State.reset with draws := ss.machine.draws, diags := ss.machine.diags } ∧ m.fault = none

/-- R193: one tick, and any number of ticks: both timers go down by one per tick and stop at zero; nothing else changes;
a faulted machine ticks too. One event for both is the spec's D15, ticks under a fault D27 (log entry 19). -/
def Obligations.TicksCountDownToZero : Prop :=
  ∀ (s : State) (n : Nat), ∃ t : State, Nat.iterate timerTick n s = t ∧
    t.delayTimer.toNat = s.delayTimer.toNat - n ∧ t.soundTimer.toNat = s.soundTimer.toNat - n ∧
    t = { s with delayTimer := t.delayTimer, soundTimer := t.soundTimer }

/-- R196, R197 (the spec's D26, log entry 19): `KeyUpdate` replaces the sixteen keys, `ClearDirty` clears the dirty flag;
neither changes anything else, the model's own `Session.phase` (log entry 8) among it. -/
def Obligations.KeyUpdateAndClearDirty : Prop :=
  ∀ (ss : Session) (k : BitVec 16),
    (Event.keyUpdate k).apply ss = .next { ss with machine := { ss.machine with keys := k } } ∧
    Event.clearDirty.apply ss = .next { ss with machine := { ss.machine with isDrawing := false } }

/-- R214, R199: a program of at most 0xE00 bytes is placed whole from 0x200 up, every other byte and all other state
unchanged; a larger one is refused (and a refused event leaves the session it was given).
`Canonical` is the model's own list form (log entry 5). -/
def Obligations.LoadProgramPlacesWholeImage : Prop :=
  ∀ (bytes : List Byte) (s : State),
    (bytes.length > 0xE00 → loadProgram bytes s = .refused (.programTooLarge bytes.length)) ∧
    (bytes.length ≤ 0xE00 → Canonical s → ∃ t, loadProgram bytes s = .next t ∧
      (∀ k : Nat, ∀ h : k < bytes.length, t.byteAt (0x200 + k) = bytes[k]) ∧
      (∀ a : Nat, a < 0x200 ∨ 0x200 + bytes.length ≤ a → t.byteAt a = s.byteAt a) ∧
      t = { s with memory := t.memory })

/-- R214, R215: `LoadProgram` acts only between a `Reset` and the first `Step` after it: it is refused in the running
phase and, where the image fits, acts in the boot phase; a `Step` leads to the running phase, nothing but a `Step` leaves
the boot phase, and nothing but a `Reset` (`ResetErasesEverything`) leaves the running phase. The window is the spec's
D19, which the model holds in `Session.phase` and answers with a refusal (log entries 8, 19). -/
def Obligations.LoadOnlyBeforeFirstStep : Prop :=
  (∀ (ss : Session) (bytes : List Byte), ss.phase = .running →
    (Event.loadProgram bytes).apply ss = .refused .loadOutsideBoot) ∧
  (∀ (ss : Session) (bytes : List Byte), ss.phase = .boot → bytes.length ≤ 0xE00 →
    ∃ m, loadProgram bytes ss.machine = .next m ∧
      (Event.loadProgram bytes).apply ss = .next { machine := m, phase := .boot }) ∧
  (∀ ss : Session, ∃ m, Event.step.apply ss = .next { machine := m, phase := .running }) ∧
  (∀ (ss : Session) (e : Event) (ss' : Session), e ≠ .step → ss.phase = .boot → e.apply ss = .next ss' →
    ss'.phase = .boot) ∧
  ∀ (ss : Session) (e : Event) (ss' : Session), e ≠ .reset → ss.phase = .running → e.apply ss = .next ss' →
    ss'.phase = .running

/-! ### Invariants and isolation -/

/-- The reset memory is in canonical form, the model's own list form (log entry 5): listed addresses strictly rising and
below 4096, no entry equal to what reset leaves at its address. The spec's memory is 4096 bytes (R23); the list holds
those that differ from the reset contents, so the reset memory lists none. -/
def Obligations.ResetMemoryIsCanonical : Prop := Canonical State.reset

/-- Every step, from every state whose memory is in the model's canonical list form (log entry 5: listed addresses
strictly rising and below 4096, no entry equal to what reset leaves at its address), keeps it so. -/
def Obligations.StepKeepsMemoryCanonical : Prop :=
  ∀ s t : State, Canonical s → step s = .next t → Canonical t

/-- R212, R215: memory is in the model's canonical list form (log entry 5) in every session that any interleaving of
steps and host events reaches from power-on; sessions are the model's form of R215 (log entries 7, 8). That each event
keeps it in ANY session is `EveryEventKeepsMemoryCanonical`. -/
def Obligations.ReachableMemoryIsCanonical : Prop := ∀ ss : Session, Reachable ss → Canonical ss.machine

/-- Two laws of the model's canonical list form (log entry 5), which is one list for each memory of R23's 4096 bytes:
canonical memories that agree at every address below 4096 are the same data; and the reading helper gives 0x00 at 4096
and above, the model's choice there, which no instruction reaches, since such a read faults (R42). -/
def Obligations.CanonicalMemoryIsItsBytes : Prop :=
  ∀ m m' : Memory, m.wf = true → m'.wf = true →
    ((∀ a : Nat, a < 4096 → m.read a = m'.read a) → m = m') ∧ ∀ a : Nat, 4096 ≤ a → m.read a = 0x00#8

/-- R18, R21: no instruction reads `soundTimer` or `isDrawing`: two states that differ only there step to states that
differ at most there. -/
def Obligations.SoundTimerAndDirtyFlagAreNeverRead : Prop :=
  ∀ (s : State) (b : Byte) (d : Bool), ∃ t u,
    step s = .next t ∧ step { s with soundTimer := b, isDrawing := d } = .next u ∧
    u = { t with soundTimer := u.soundTimer, isDrawing := u.isDrawing }

/-- R17: entries at and above `sp` are not live: what they hold reaches no other state and no live entry. -/
def Obligations.DeadStackEntriesAreNeverRead : Prop :=
  ∀ (s : State) (k : Fin 16) (w : Word), s.sp.val ≤ k.val → ∃ t u,
    step s = .next t ∧ step { s with stack := s.stack.set k.val w k.isLt } = .next u ∧
    u = { t with stack := u.stack } ∧ ∀ j : Fin 16, j.val < t.sp.val → u.stack[j] = t.stack[j]

/-- R190, R24: the model's own record of outputs (log entry 3) steers nothing, and neither a step nor an event forgets an
output: with other diagnostics recorded before, a step, or an event that is not refused, does the same and emits the
same. That the event Reset keeps the record is log entry 7; sessions and their phase are log entries 7 and 8. -/
def Obligations.DiagnosticsSteerNothing : Prop :=
  (∀ (s : State) (before : List Word), ∃ t out,
    step s = .next t ∧ t.diags = s.diags ++ out ∧ out.length ≤ 1 ∧
    step { s with diags := before } = .next { t with diags := before ++ out }) ∧
  ∀ (e : Event) (a b : Session) (before : List Word), e.apply a = .next b → ∃ out,
    b.machine.diags = a.machine.diags ++ out ∧ out.length ≤ 1 ∧
    e.apply { a with machine := { a.machine with diags := before } } =
      .next { b with machine := { b.machine with diags := before ++ out } }

/-- Every event (R6: Reset, LoadProgram, Step, TimerTick, KeyUpdate, ClearDirty), in any session whose memory is in the
model's canonical list form (log entry 5), reached or not, keeps it so; and power-on (R212) has it. Sessions
and their phase are the model's own (log entries 7, 8), the load window they hold the spec's D19 (log entry 19). -/
def Obligations.EveryEventKeepsMemoryCanonical : Prop :=
  Canonical Session.powerOn.machine ∧
  ∀ (e : Event) (a b : Session), Canonical a.machine → e.apply a = .next b → Canonical b.machine
end

