-- ==== Sys2Proof/Laws/Decode.lean ====
section
/-! SUPPORT. The operand fields of a word put together from fields, one lemma per field per format (30_encoding R61, R62),
and the words put together again from their fields. -/

namespace Sys2Proof

/-- Bits above the low part of a concatenation come from its high part. -/
theorem extract_append_high {m k : Nat} (a : BitVec m) (b : BitVec k) {start len : Nat} (h : k ≤ start) :
    (a ++ b).extractLsb' start len = a.extractLsb' (start - k) len := by
  apply BitVec.eq_of_getLsbD_eq
  intro i hi
  simp only [BitVec.getLsbD_extractLsb', BitVec.getLsbD_append]
  rw [if_neg (by omega), Nat.sub_add_comm h]

/-- Bits of the low part of a concatenation. -/
theorem extract_append_low {m k : Nat} (a : BitVec m) (b : BitVec k) {start len : Nat} (h : start + len ≤ k) :
    (a ++ b).extractLsb' start len = b.extractLsb' start len := by
  apply BitVec.eq_of_getLsbD_eq
  intro i hi
  simp only [BitVec.getLsbD_extractLsb', BitVec.getLsbD_append]
  rw [if_pos (by omega)]

theorem extract_all {k : Nat} (b : BitVec k) : b.extractLsb' 0 k = b := by
  apply BitVec.eq_of_getLsbD_eq
  intro i hi
  simp [hi]

/-- A register number survives being written as four bits. -/
@[simp] theorem toFin_regBits (x : Reg) : (regBits x).toFin = x := rfl

@[simp] theorem regBits_toFin (b : BitVec 4) : regBits b.toFin = b := rfl

section Address
variable (f : BitVec 4) (nnn : BitVec 12)

@[simp] theorem family_address : family (f ++ nnn) = f := by
  unfold family
  rw [extract_append_high f nnn (by omega)]
  exact extract_all f

@[simp] theorem fieldNNN_address : fieldNNN (f ++ nnn) = nnn := by
  unfold fieldNNN
  rw [extract_append_low f nnn (by omega)]
  exact extract_all nnn

end Address

section RegisterByte
variable (f x : BitVec 4) (nn : Byte)

@[simp] theorem family_registerByte : family (f ++ x ++ nn) = f := by
  unfold family
  rw [extract_append_high (f ++ x) nn (by omega), extract_append_high f x (by omega)]
  exact extract_all f

@[simp] theorem fieldX_registerByte : fieldX (f ++ x ++ nn) = x.toFin := by
  unfold fieldX
  rw [extract_append_high (f ++ x) nn (by omega), extract_append_low f x (by omega)]
  exact congrArg BitVec.toFin (extract_all x)

@[simp] theorem fieldNN_registerByte : fieldNN (f ++ x ++ nn) = nn := by
  unfold fieldNN
  rw [extract_append_low (f ++ x) nn (by omega)]
  exact extract_all nn

end RegisterByte

section Nibbles
variable (f x y n : BitVec 4)

@[simp] theorem family_nibbles : family (f ++ x ++ y ++ n) = f := by
  unfold family
  rw [extract_append_high (f ++ x ++ y) n (by omega), extract_append_high (f ++ x) y (by omega),
    extract_append_high f x (by omega)]
  exact extract_all f

@[simp] theorem fieldX_nibbles : fieldX (f ++ x ++ y ++ n) = x.toFin := by
  unfold fieldX
  rw [extract_append_high (f ++ x ++ y) n (by omega), extract_append_high (f ++ x) y (by omega),
    extract_append_low f x (by omega)]
  exact congrArg BitVec.toFin (extract_all x)

@[simp] theorem fieldY_nibbles : fieldY (f ++ x ++ y ++ n) = y.toFin := by
  unfold fieldY
  rw [extract_append_high (f ++ x ++ y) n (by omega), extract_append_low (f ++ x) y (by omega)]
  exact congrArg BitVec.toFin (extract_all y)

@[simp] theorem fieldN_nibbles : fieldN (f ++ x ++ y ++ n) = n := by
  unfold fieldN
  rw [extract_append_low (f ++ x ++ y) n (by omega)]
  exact extract_all n

end Nibbles

/-- A word is its two halves put together again. -/
theorem append_extract {m k : Nat} (a : BitVec (m + k)) : a.extractLsb' k m ++ a.extractLsb' 0 k = a := by
  apply BitVec.eq_of_getLsbD_eq
  intro i hi
  simp only [BitVec.getLsbD_append, BitVec.getLsbD_extractLsb']
  split
  · simp [*]
  · have h1 : i - k < m := by omega
    have h2 : k + (i - k) = i := by omega
    simp [h1, h2]

/-- A word is its family nibble and its low 12 bits. -/
theorem address_fields (oc : Word) : family oc ++ fieldNNN oc = oc := append_extract (m := 4) (k := 12) oc

/-- A word is its two bytes, high byte first (R46). -/
theorem wordOfBytes_halves (oc : Word) : wordOfBytes (oc.extractLsb' 8 8) (oc.extractLsb' 0 8) = oc :=
  append_extract (m := 8) (k := 8) oc

end Sys2Proof
end

