-- ==== Sys2Proof/Laws/Memory.lean ====
section
/-! SUPPORT. The laws of memory: read after write, and that every memory operation keeps the canonical form. -/

namespace Sys2Proof.Machine

theorem Memory.read_cons (a c : Nat) (b : Byte) (m : Memory) (h : m.read a = resetByte a) :
    (Memory.cons a b m).read c = if c = a then b else m.read c := by
  unfold Memory.cons
  split
  · rename_i hb
    split
    · rename_i hc; rw [hc, h, hb]
    · rfl
  · simp [Memory.read, eq_comm]

/-- In a canonical memory, an address below every listed one reads as reset left it. -/
theorem Memory.read_below {lo : Nat} {m : Memory} (h : m.wfFrom lo = true) {a : Nat} (ha : a < lo) :
    m.read a = resetByte a := by
  induction m generalizing lo with
  | nil => rfl
  | cons e m ih =>
    obtain ⟨k, c⟩ := e
    simp only [Memory.wfFrom, Bool.and_eq_true, decide_eq_true_eq] at h
    have hk : k ≠ a := by omega
    simp only [Memory.read, hk, if_false]
    exact ih h.2 (by omega)

/-- A form that holds from `lo` on holds from any lower bound on. -/
theorem Memory.wfFrom_mono {lo hi : Nat} {m : Memory} (hle : lo ≤ hi) (h : m.wfFrom hi = true) :
    m.wfFrom lo = true := by
  cases m with
  | nil => rfl
  | cons e m =>
    obtain ⟨k, c⟩ := e
    simp only [Memory.wfFrom, Bool.and_eq_true, decide_eq_true_eq] at h ⊢
    exact ⟨⟨⟨by omega, h.1.1.2⟩, h.1.2⟩, h.2⟩

theorem Memory.wfFrom_cons {lo a : Nat} {b : Byte} {m : Memory} (hlo : lo ≤ a) (ha : a < 4096)
    (h : m.wfFrom (a + 1) = true) : (Memory.cons a b m).wfFrom lo = true := by
  unfold Memory.cons
  split
  · exact Memory.wfFrom_mono (by omega) h
  · simp [Memory.wfFrom, *]

/-- Reading a byte after writing one (R43), in a canonical memory. -/
theorem Memory.read_write_from {lo : Nat} {m : Memory} (h : m.wfFrom lo = true) (a c : Nat) (b : Byte) :
    (m.write a b).read c = if c = a then b else m.read c := by
  induction m generalizing lo with
  | nil => exact Memory.read_cons a c b [] rfl
  | cons e m ih =>
    obtain ⟨k, d⟩ := e
    have h' := h
    simp only [Memory.wfFrom, Bool.and_eq_true, decide_eq_true_eq] at h
    simp only [Memory.write]
    split
    · rename_i hak
      refine Memory.read_cons a c b _ ?_
      have hw : Memory.wfFrom k ((k, d) :: m) = true := by
        simp only [Memory.wfFrom, Bool.and_eq_true, decide_eq_true_eq]
        exact ⟨⟨⟨Nat.le_refl k, h.1.1.2⟩, h.1.2⟩, h.2⟩
      exact Memory.read_below hw hak
    · split
      · rename_i hak
        subst hak
        rw [Memory.read_cons a c b m (Memory.read_below h.2 (by omega))]
        by_cases hc : c = a
        · simp [hc]
        · have : a ≠ c := fun h => hc h.symm
          simp [Memory.read, hc, this]
      · rename_i hak
        simp only [Memory.read, ih h.2]
        by_cases hc : k = c
        · have : c ≠ a := by omega
          simp [hc, this]
        · simp [hc]

/-- Writing a byte keeps the canonical form. -/
theorem Memory.write_wfFrom {lo : Nat} {m : Memory} (h : m.wfFrom lo = true) {a : Nat} (hlo : lo ≤ a) (ha : a < 4096)
    (b : Byte) : (m.write a b).wfFrom lo = true := by
  induction m generalizing lo with
  | nil => exact Memory.wfFrom_cons hlo ha rfl
  | cons e m ih =>
    obtain ⟨k, d⟩ := e
    simp only [Memory.wfFrom, Bool.and_eq_true, decide_eq_true_eq] at h
    simp only [Memory.write]
    split
    · refine Memory.wfFrom_cons hlo ha ?_
      simp only [Memory.wfFrom, Bool.and_eq_true, decide_eq_true_eq]
      exact ⟨⟨⟨by omega, h.1.1.2⟩, h.1.2⟩, h.2⟩
    · split
      · exact Memory.wfFrom_cons hlo ha (by subst_vars; exact h.2)
      · simp only [Memory.wfFrom, Bool.and_eq_true, decide_eq_true_eq]
        exact ⟨⟨⟨h.1.1.1, h.1.1.2⟩, h.1.2⟩, ih h.2 (by omega)⟩

/-- Read after write, at the place written and elsewhere (R43). -/
theorem Memory.read_write {m : Memory} (h : m.wf = true) (a c : Nat) (b : Byte) :
    (m.write a b).read c = if c = a then b else m.read c :=
  Memory.read_write_from h a c b

/-- `Memory.write` keeps the canonical form. -/
theorem Memory.write_wf {m : Memory} (h : m.wf = true) {a : Nat} (ha : a < 4096) (b : Byte) :
    (m.write a b).wf = true :=
  Memory.write_wfFrom h (Nat.zero_le a) ha b

/-- `Memory.writeBytes` keeps the canonical form. -/
theorem Memory.writeBytes_wf {m : Memory} (h : m.wf = true) {base : Nat} {bs : List Byte}
    (hb : base + bs.length ≤ 4096) : (m.writeBytes base bs).wf = true := by
  induction bs generalizing m base with
  | nil => exact h
  | cons b bs ih =>
    simp only [List.length_cons] at hb
    exact ih (Memory.write_wf h (by omega) b) (by omega)

/-- A byte after a run of bytes has been written: the run's byte inside it, the old byte outside it (R43, R48). -/
theorem Memory.read_writeBytes {m : Memory} (h : m.wf = true) {base : Nat} {bs : List Byte}
    (hb : base + bs.length ≤ 4096) (c : Nat) :
    (m.writeBytes base bs).read c =
      if base ≤ c ∧ c < base + bs.length then bs.getD (c - base) 0#8 else m.read c := by
  induction bs generalizing m base with
  | nil => simp [Memory.writeBytes]
  | cons b bs ih =>
    simp only [List.length_cons] at hb
    simp only [Memory.writeBytes]
    rw [ih (Memory.write_wf h (by omega) b) (by omega), Memory.read_write h]
    simp only [List.length_cons]
    by_cases hc : c = base
    · subst hc
      rw [if_neg (by omega), if_pos rfl, if_pos (by omega)]
      simp
    · by_cases hin : base + 1 ≤ c ∧ c < base + 1 + bs.length
      · have h3 : c - base = (c - (base + 1)) + 1 := by omega
        rw [if_pos hin, if_pos (by omega), h3]
        simp
      · rw [if_neg hin, if_neg hc, if_neg (by omega)]

/-- The length of a run of bytes read. -/
@[simp] theorem Memory.length_readBytes (m : Memory) (base n : Nat) : (m.readBytes base n).length = n := by
  induction n generalizing base with
  | zero => rfl
  | succ n ih => simp [Memory.readBytes, ih]

/-- Byte `k` of a run of bytes read (R48). -/
theorem Memory.getElem_readBytes (m : Memory) (base n k : Nat) (hk : k < (m.readBytes base n).length) :
    (m.readBytes base n)[k] = m.read (base + k) := by
  induction n generalizing base k with
  | zero => simp [Memory.readBytes] at hk
  | succ n ih =>
    cases k with
    | zero => rfl
    | succ k =>
      simp only [Memory.readBytes, List.getElem_cons_succ]
      rw [ih (base + 1) k]
      congr 1
      omega

end Sys2Proof.Machine
end

