-- ==== Sys2Proof/Laws/State.lean ====
section
/-! SUPPORT. One lemma per field per update of State, true by `rfl`, so that no later proof unfolds a record update. -/

namespace Sys2Proof.Machine

@[simp] theorem State.advance_memory (s : State) : (s.advance).memory = s.memory := rfl
@[simp] theorem State.advance_V (s : State) : (s.advance).V = s.V := rfl
@[simp] theorem State.advance_I (s : State) : (s.advance).I = s.I := rfl
@[simp] theorem State.advance_pc (s : State) : (s.advance).pc = s.pc + 2#16 := rfl
@[simp] theorem State.advance_stack (s : State) : (s.advance).stack = s.stack := rfl
@[simp] theorem State.advance_sp (s : State) : (s.advance).sp = s.sp := rfl
@[simp] theorem State.advance_delayTimer (s : State) : (s.advance).delayTimer = s.delayTimer := rfl
@[simp] theorem State.advance_soundTimer (s : State) : (s.advance).soundTimer = s.soundTimer := rfl
@[simp] theorem State.advance_keys (s : State) : (s.advance).keys = s.keys := rfl
@[simp] theorem State.advance_display (s : State) : (s.advance).display = s.display := rfl
@[simp] theorem State.advance_isDrawing (s : State) : (s.advance).isDrawing = s.isDrawing := rfl
@[simp] theorem State.advance_fault (s : State) : (s.advance).fault = s.fault := rfl
@[simp] theorem State.advance_draws (s : State) : (s.advance).draws = s.draws := rfl
@[simp] theorem State.advance_diags (s : State) : (s.advance).diags = s.diags := rfl

@[simp] theorem State.setPc_memory (s : State) (w : Word) : (s.setPc w).memory = s.memory := rfl
@[simp] theorem State.setPc_V (s : State) (w : Word) : (s.setPc w).V = s.V := rfl
@[simp] theorem State.setPc_I (s : State) (w : Word) : (s.setPc w).I = s.I := rfl
@[simp] theorem State.setPc_pc (s : State) (w : Word) : (s.setPc w).pc = w := rfl
@[simp] theorem State.setPc_stack (s : State) (w : Word) : (s.setPc w).stack = s.stack := rfl
@[simp] theorem State.setPc_sp (s : State) (w : Word) : (s.setPc w).sp = s.sp := rfl
@[simp] theorem State.setPc_delayTimer (s : State) (w : Word) : (s.setPc w).delayTimer = s.delayTimer := rfl
@[simp] theorem State.setPc_soundTimer (s : State) (w : Word) : (s.setPc w).soundTimer = s.soundTimer := rfl
@[simp] theorem State.setPc_keys (s : State) (w : Word) : (s.setPc w).keys = s.keys := rfl
@[simp] theorem State.setPc_display (s : State) (w : Word) : (s.setPc w).display = s.display := rfl
@[simp] theorem State.setPc_isDrawing (s : State) (w : Word) : (s.setPc w).isDrawing = s.isDrawing := rfl
@[simp] theorem State.setPc_fault (s : State) (w : Word) : (s.setPc w).fault = s.fault := rfl
@[simp] theorem State.setPc_draws (s : State) (w : Word) : (s.setPc w).draws = s.draws := rfl
@[simp] theorem State.setPc_diags (s : State) (w : Word) : (s.setPc w).diags = s.diags := rfl

@[simp] theorem State.setReg_memory (s : State) (x : Reg) (b : Byte) : (s.setReg x b).memory = s.memory := rfl
@[simp] theorem State.setReg_V (s : State) (x : Reg) (b : Byte) : (s.setReg x b).V = s.V.set x.val b x.isLt := rfl
@[simp] theorem State.setReg_I (s : State) (x : Reg) (b : Byte) : (s.setReg x b).I = s.I := rfl
@[simp] theorem State.setReg_pc (s : State) (x : Reg) (b : Byte) : (s.setReg x b).pc = s.pc := rfl
@[simp] theorem State.setReg_stack (s : State) (x : Reg) (b : Byte) : (s.setReg x b).stack = s.stack := rfl
@[simp] theorem State.setReg_sp (s : State) (x : Reg) (b : Byte) : (s.setReg x b).sp = s.sp := rfl
@[simp] theorem State.setReg_delayTimer (s : State) (x : Reg) (b : Byte) : (s.setReg x b).delayTimer = s.delayTimer := rfl
@[simp] theorem State.setReg_soundTimer (s : State) (x : Reg) (b : Byte) : (s.setReg x b).soundTimer = s.soundTimer := rfl
@[simp] theorem State.setReg_keys (s : State) (x : Reg) (b : Byte) : (s.setReg x b).keys = s.keys := rfl
@[simp] theorem State.setReg_display (s : State) (x : Reg) (b : Byte) : (s.setReg x b).display = s.display := rfl
@[simp] theorem State.setReg_isDrawing (s : State) (x : Reg) (b : Byte) : (s.setReg x b).isDrawing = s.isDrawing := rfl
@[simp] theorem State.setReg_fault (s : State) (x : Reg) (b : Byte) : (s.setReg x b).fault = s.fault := rfl
@[simp] theorem State.setReg_draws (s : State) (x : Reg) (b : Byte) : (s.setReg x b).draws = s.draws := rfl
@[simp] theorem State.setReg_diags (s : State) (x : Reg) (b : Byte) : (s.setReg x b).diags = s.diags := rfl

@[simp] theorem State.setFlagThenReg_memory (s : State) (x : Reg) (f r : Byte) : (s.setFlagThenReg x f r).memory = s.memory := rfl
@[simp] theorem State.setFlagThenReg_V (s : State) (x : Reg) (f r : Byte) : (s.setFlagThenReg x f r).V = (s.V.set VF.val f VF.isLt).set x.val r x.isLt := rfl
@[simp] theorem State.setFlagThenReg_I (s : State) (x : Reg) (f r : Byte) : (s.setFlagThenReg x f r).I = s.I := rfl
@[simp] theorem State.setFlagThenReg_pc (s : State) (x : Reg) (f r : Byte) : (s.setFlagThenReg x f r).pc = s.pc := rfl
@[simp] theorem State.setFlagThenReg_stack (s : State) (x : Reg) (f r : Byte) : (s.setFlagThenReg x f r).stack = s.stack := rfl
@[simp] theorem State.setFlagThenReg_sp (s : State) (x : Reg) (f r : Byte) : (s.setFlagThenReg x f r).sp = s.sp := rfl
@[simp] theorem State.setFlagThenReg_delayTimer (s : State) (x : Reg) (f r : Byte) : (s.setFlagThenReg x f r).delayTimer = s.delayTimer := rfl
@[simp] theorem State.setFlagThenReg_soundTimer (s : State) (x : Reg) (f r : Byte) : (s.setFlagThenReg x f r).soundTimer = s.soundTimer := rfl
@[simp] theorem State.setFlagThenReg_keys (s : State) (x : Reg) (f r : Byte) : (s.setFlagThenReg x f r).keys = s.keys := rfl
@[simp] theorem State.setFlagThenReg_display (s : State) (x : Reg) (f r : Byte) : (s.setFlagThenReg x f r).display = s.display := rfl
@[simp] theorem State.setFlagThenReg_isDrawing (s : State) (x : Reg) (f r : Byte) : (s.setFlagThenReg x f r).isDrawing = s.isDrawing := rfl
@[simp] theorem State.setFlagThenReg_fault (s : State) (x : Reg) (f r : Byte) : (s.setFlagThenReg x f r).fault = s.fault := rfl
@[simp] theorem State.setFlagThenReg_draws (s : State) (x : Reg) (f r : Byte) : (s.setFlagThenReg x f r).draws = s.draws := rfl
@[simp] theorem State.setFlagThenReg_diags (s : State) (x : Reg) (f r : Byte) : (s.setFlagThenReg x f r).diags = s.diags := rfl

@[simp] theorem State.setI_memory (s : State) (w : Word) : (s.setI w).memory = s.memory := rfl
@[simp] theorem State.setI_V (s : State) (w : Word) : (s.setI w).V = s.V := rfl
@[simp] theorem State.setI_I (s : State) (w : Word) : (s.setI w).I = w := rfl
@[simp] theorem State.setI_pc (s : State) (w : Word) : (s.setI w).pc = s.pc := rfl
@[simp] theorem State.setI_stack (s : State) (w : Word) : (s.setI w).stack = s.stack := rfl
@[simp] theorem State.setI_sp (s : State) (w : Word) : (s.setI w).sp = s.sp := rfl
@[simp] theorem State.setI_delayTimer (s : State) (w : Word) : (s.setI w).delayTimer = s.delayTimer := rfl
@[simp] theorem State.setI_soundTimer (s : State) (w : Word) : (s.setI w).soundTimer = s.soundTimer := rfl
@[simp] theorem State.setI_keys (s : State) (w : Word) : (s.setI w).keys = s.keys := rfl
@[simp] theorem State.setI_display (s : State) (w : Word) : (s.setI w).display = s.display := rfl
@[simp] theorem State.setI_isDrawing (s : State) (w : Word) : (s.setI w).isDrawing = s.isDrawing := rfl
@[simp] theorem State.setI_fault (s : State) (w : Word) : (s.setI w).fault = s.fault := rfl
@[simp] theorem State.setI_draws (s : State) (w : Word) : (s.setI w).draws = s.draws := rfl
@[simp] theorem State.setI_diags (s : State) (w : Word) : (s.setI w).diags = s.diags := rfl

@[simp] theorem State.storeBytes_memory (s : State) (base : Nat) (bs : List Byte) : (s.storeBytes base bs).memory = s.memory.writeBytes base bs := rfl
@[simp] theorem State.storeBytes_V (s : State) (base : Nat) (bs : List Byte) : (s.storeBytes base bs).V = s.V := rfl
@[simp] theorem State.storeBytes_I (s : State) (base : Nat) (bs : List Byte) : (s.storeBytes base bs).I = s.I := rfl
@[simp] theorem State.storeBytes_pc (s : State) (base : Nat) (bs : List Byte) : (s.storeBytes base bs).pc = s.pc := rfl
@[simp] theorem State.storeBytes_stack (s : State) (base : Nat) (bs : List Byte) : (s.storeBytes base bs).stack = s.stack := rfl
@[simp] theorem State.storeBytes_sp (s : State) (base : Nat) (bs : List Byte) : (s.storeBytes base bs).sp = s.sp := rfl
@[simp] theorem State.storeBytes_delayTimer (s : State) (base : Nat) (bs : List Byte) : (s.storeBytes base bs).delayTimer = s.delayTimer := rfl
@[simp] theorem State.storeBytes_soundTimer (s : State) (base : Nat) (bs : List Byte) : (s.storeBytes base bs).soundTimer = s.soundTimer := rfl
@[simp] theorem State.storeBytes_keys (s : State) (base : Nat) (bs : List Byte) : (s.storeBytes base bs).keys = s.keys := rfl
@[simp] theorem State.storeBytes_display (s : State) (base : Nat) (bs : List Byte) : (s.storeBytes base bs).display = s.display := rfl
@[simp] theorem State.storeBytes_isDrawing (s : State) (base : Nat) (bs : List Byte) : (s.storeBytes base bs).isDrawing = s.isDrawing := rfl
@[simp] theorem State.storeBytes_fault (s : State) (base : Nat) (bs : List Byte) : (s.storeBytes base bs).fault = s.fault := rfl
@[simp] theorem State.storeBytes_draws (s : State) (base : Nat) (bs : List Byte) : (s.storeBytes base bs).draws = s.draws := rfl
@[simp] theorem State.storeBytes_diags (s : State) (base : Nat) (bs : List Byte) : (s.storeBytes base bs).diags = s.diags := rfl

@[simp] theorem State.countDraw_memory (s : State) : (s.countDraw).memory = s.memory := rfl
@[simp] theorem State.countDraw_V (s : State) : (s.countDraw).V = s.V := rfl
@[simp] theorem State.countDraw_I (s : State) : (s.countDraw).I = s.I := rfl
@[simp] theorem State.countDraw_pc (s : State) : (s.countDraw).pc = s.pc := rfl
@[simp] theorem State.countDraw_stack (s : State) : (s.countDraw).stack = s.stack := rfl
@[simp] theorem State.countDraw_sp (s : State) : (s.countDraw).sp = s.sp := rfl
@[simp] theorem State.countDraw_delayTimer (s : State) : (s.countDraw).delayTimer = s.delayTimer := rfl
@[simp] theorem State.countDraw_soundTimer (s : State) : (s.countDraw).soundTimer = s.soundTimer := rfl
@[simp] theorem State.countDraw_keys (s : State) : (s.countDraw).keys = s.keys := rfl
@[simp] theorem State.countDraw_display (s : State) : (s.countDraw).display = s.display := rfl
@[simp] theorem State.countDraw_isDrawing (s : State) : (s.countDraw).isDrawing = s.isDrawing := rfl
@[simp] theorem State.countDraw_fault (s : State) : (s.countDraw).fault = s.fault := rfl
@[simp] theorem State.countDraw_draws (s : State) : (s.countDraw).draws = s.draws + 1 := rfl
@[simp] theorem State.countDraw_diags (s : State) : (s.countDraw).diags = s.diags := rfl

@[simp] theorem State.skipIf_memory (s : State) (c : Bool) : (s.skipIf c).memory = s.memory := by
  cases c <;> rfl
@[simp] theorem State.skipIf_V (s : State) (c : Bool) : (s.skipIf c).V = s.V := by
  cases c <;> rfl
@[simp] theorem State.skipIf_I (s : State) (c : Bool) : (s.skipIf c).I = s.I := by
  cases c <;> rfl
@[simp] theorem State.skipIf_stack (s : State) (c : Bool) : (s.skipIf c).stack = s.stack := by
  cases c <;> rfl
@[simp] theorem State.skipIf_sp (s : State) (c : Bool) : (s.skipIf c).sp = s.sp := by
  cases c <;> rfl
@[simp] theorem State.skipIf_delayTimer (s : State) (c : Bool) : (s.skipIf c).delayTimer = s.delayTimer := by
  cases c <;> rfl
@[simp] theorem State.skipIf_soundTimer (s : State) (c : Bool) : (s.skipIf c).soundTimer = s.soundTimer := by
  cases c <;> rfl
@[simp] theorem State.skipIf_keys (s : State) (c : Bool) : (s.skipIf c).keys = s.keys := by
  cases c <;> rfl
@[simp] theorem State.skipIf_display (s : State) (c : Bool) : (s.skipIf c).display = s.display := by
  cases c <;> rfl
@[simp] theorem State.skipIf_isDrawing (s : State) (c : Bool) : (s.skipIf c).isDrawing = s.isDrawing := by
  cases c <;> rfl
@[simp] theorem State.skipIf_fault (s : State) (c : Bool) : (s.skipIf c).fault = s.fault := by
  cases c <;> rfl
@[simp] theorem State.skipIf_draws (s : State) (c : Bool) : (s.skipIf c).draws = s.draws := by
  cases c <;> rfl
@[simp] theorem State.skipIf_diags (s : State) (c : Bool) : (s.skipIf c).diags = s.diags := by
  cases c <;> rfl
@[simp] theorem State.skipIf_pc (s : State) (c : Bool) :
    (s.skipIf c).pc = if c then s.pc + 2#16 else s.pc := by
  cases c <;> rfl

@[simp] theorem State.loadRegs_memory (s : State) (base n : Nat) : (s.loadRegs base n).memory = s.memory := by
  induction n with
  | zero => rfl
  | succ n ih => unfold State.loadRegs; split <;> simp [ih]
@[simp] theorem State.loadRegs_I (s : State) (base n : Nat) : (s.loadRegs base n).I = s.I := by
  induction n with
  | zero => rfl
  | succ n ih => unfold State.loadRegs; split <;> simp [ih]
@[simp] theorem State.loadRegs_pc (s : State) (base n : Nat) : (s.loadRegs base n).pc = s.pc := by
  induction n with
  | zero => rfl
  | succ n ih => unfold State.loadRegs; split <;> simp [ih]
@[simp] theorem State.loadRegs_stack (s : State) (base n : Nat) : (s.loadRegs base n).stack = s.stack := by
  induction n with
  | zero => rfl
  | succ n ih => unfold State.loadRegs; split <;> simp [ih]
@[simp] theorem State.loadRegs_sp (s : State) (base n : Nat) : (s.loadRegs base n).sp = s.sp := by
  induction n with
  | zero => rfl
  | succ n ih => unfold State.loadRegs; split <;> simp [ih]
@[simp] theorem State.loadRegs_delayTimer (s : State) (base n : Nat) : (s.loadRegs base n).delayTimer = s.delayTimer := by
  induction n with
  | zero => rfl
  | succ n ih => unfold State.loadRegs; split <;> simp [ih]
@[simp] theorem State.loadRegs_soundTimer (s : State) (base n : Nat) : (s.loadRegs base n).soundTimer = s.soundTimer := by
  induction n with
  | zero => rfl
  | succ n ih => unfold State.loadRegs; split <;> simp [ih]
@[simp] theorem State.loadRegs_keys (s : State) (base n : Nat) : (s.loadRegs base n).keys = s.keys := by
  induction n with
  | zero => rfl
  | succ n ih => unfold State.loadRegs; split <;> simp [ih]
@[simp] theorem State.loadRegs_display (s : State) (base n : Nat) : (s.loadRegs base n).display = s.display := by
  induction n with
  | zero => rfl
  | succ n ih => unfold State.loadRegs; split <;> simp [ih]
@[simp] theorem State.loadRegs_isDrawing (s : State) (base n : Nat) : (s.loadRegs base n).isDrawing = s.isDrawing := by
  induction n with
  | zero => rfl
  | succ n ih => unfold State.loadRegs; split <;> simp [ih]
@[simp] theorem State.loadRegs_fault (s : State) (base n : Nat) : (s.loadRegs base n).fault = s.fault := by
  induction n with
  | zero => rfl
  | succ n ih => unfold State.loadRegs; split <;> simp [ih]
@[simp] theorem State.loadRegs_draws (s : State) (base n : Nat) : (s.loadRegs base n).draws = s.draws := by
  induction n with
  | zero => rfl
  | succ n ih => unfold State.loadRegs; split <;> simp [ih]
@[simp] theorem State.loadRegs_diags (s : State) (base n : Nat) : (s.loadRegs base n).diags = s.diags := by
  induction n with
  | zero => rfl
  | succ n ih => unfold State.loadRegs; split <;> simp [ih]

theorem State.reg_eq (s : State) (x : Reg) : s.reg x = s.V[x] := rfl

@[simp] theorem State.byteAt_eq (s : State) (a : Nat) : s.byteAt a = s.memory.read a := rfl

/-- Reading a register after writing one. -/
theorem State.getElem_setReg (s : State) (x r : Reg) (b : Byte) :
    (s.setReg x b).V[r] = if r = x then b else s.V[r] := by
  simp [Vector.getElem_set, Fin.ext_iff, eq_comm]

/-- Reading a register after a flag and then a result have been written: the result wins where both go to VF (R110). -/
theorem State.getElem_setFlagThenReg (s : State) (x r : Reg) (f b : Byte) :
    (s.setFlagThenReg x f b).V[r] = if r = x then b else if r = VF then f else s.V[r] := by
  simp only [State.setFlagThenReg, State.getElem_setReg]

/-- The two parts of a skip from the state before the step (R13). -/
theorem State.skip_pc (s : State) (c : Bool) :
    (s.advance.skipIf c).pc = if c then s.pc + 4#16 else s.pc + 2#16 := by
  cases c
  · rfl
  · simp [BitVec.add_assoc]

end Sys2Proof.Machine
end

