-- ==== Sys2Proof/Laws/Ops.lean ====
section
/-! SUPPORT. What each shared operation can do, said once: the range check and the fault it takes, the fetch, the stack,
register runs, the key scan, one cell of the display. -/

namespace Sys2Proof.Machine

/-- An access in range raises nothing (R44). -/
theorem rangeFault_none {base n : Nat} (h : n = 0 ∨ base + n ≤ 4096) : rangeFault base n = none := by
  unfold rangeFault
  rw [if_neg (by omega)]

/-- An access that touches an address above 0xFFF raises `MemOutOfRange` with the lowest such address (R42, R44). -/
theorem rangeFault_some {base n : Nat} (h0 : n ≠ 0) (h : 4096 < base + n) :
    rangeFault base n = some (.memOutOfRange (max base 0x1000)) := by
  unfold rangeFault
  rw [if_pos (by omega)]

/-- The range check passes: the instruction goes on. -/
theorem State.inRange_ok {s k : State} {base n : Nat} (h : n = 0 ∨ base + n ≤ 4096) :
    s.inRange base n k = .next k := by
  unfold State.inRange
  rw [rangeFault_none h]

/-- The range check fails: the fault is taken from the state before the step (R183, R184). -/
theorem State.inRange_fault {s k : State} {base n : Nat} (h0 : n ≠ 0) (h : 4096 < base + n) :
    s.inRange base n k = .next { s with fault := some (.memOutOfRange (max base 0x1000)) } := by
  unfold State.inRange
  rw [rangeFault_some h0 h]
  rfl

/-- Everything the range check can do. -/
theorem State.inRange_cases (s k : State) (base n : Nat) :
    (s.inRange base n k = .next k ∧ (n = 0 ∨ base + n ≤ 4096)) ∨
    (s.inRange base n k = .next { s with fault := some (.memOutOfRange (max base 0x1000)) } ∧
      n ≠ 0 ∧ 4096 < base + n) := by
  by_cases h : n = 0 ∨ base + n ≤ 4096
  · exact .inl ⟨State.inRange_ok h, h⟩
  · exact .inr ⟨State.inRange_fault (by omega) (by omega), by omega, by omega⟩

/-- A fetch inside memory (R46, R81). -/
theorem State.fetch_ok {s : State} (h : s.pc.toNat ≤ 0xFFE) :
    s.fetch = .ok (wordOfBytes (s.byteAt s.pc.toNat) (s.byteAt (s.pc.toNat + 1))) := by
  unfold State.fetch
  rw [rangeFault_none (by omega)]

/-- A fetch that touches an address above 0xFFF (R81). -/
theorem State.fetch_fault {s : State} (h : 0xFFE < s.pc.toNat) :
    s.fetch = .error (.memOutOfRange (max s.pc.toNat 0x1000)) := by
  unfold State.fetch
  rw [rangeFault_some (by omega) (by omega)]

/-- Pushing on a stack that is not full (R93). -/
theorem State.push_some {s : State} (w : Word) (h : s.sp.val < 16) :
    s.push w = some { s with stack := s.stack.set s.sp.val w h, sp := ⟨s.sp.val + 1, by omega⟩ } := by
  unfold State.push
  rw [dif_pos h]

/-- Pushing on a full stack (R182). -/
theorem State.push_none {s : State} (w : Word) (h : s.sp.val = 16) : s.push w = none := by
  unfold State.push
  rw [dif_neg (by omega)]

/-- Popping a stack that is not empty (R91). -/
theorem State.pop_some {s : State} (h : 0 < s.sp.val) :
    s.pop = some ({ s with sp := ⟨s.sp.val - 1, by omega⟩ }, s.stack[s.sp.val - 1]'(by omega)) := by
  unfold State.pop
  rw [dif_pos h]

/-- Popping an empty stack (R181). -/
theorem State.pop_none {s : State} (h : s.sp.val = 0) : s.pop = none := by
  unfold State.pop
  rw [dif_neg (by omega)]

/-- The registers after a run of them has been loaded (R164). -/
theorem State.getElem_loadRegs (s : State) (base n : Nat) (r : Reg) :
    (s.loadRegs base n).V[r] = if r.val < n then s.byteAt (base + r.val) else s.V[r] := by
  induction n with
  | zero => rfl
  | succ n ih =>
    by_cases h : n < 16
    · simp only [State.loadRegs, dif_pos h, State.getElem_setReg, ih]
      by_cases hr : r = ⟨n, h⟩
      · subst hr; simp
      · have hne : r.val ≠ n := fun e => hr (Fin.ext e)
        rw [if_neg hr]
        by_cases hlt : r.val < n
        · rw [if_pos hlt, if_pos (by omega)]
        · rw [if_neg hlt, if_neg (by omega)]
    · simp only [State.loadRegs, dif_neg h, ih]
      rw [if_pos (by omega), if_pos (by omega)]

/-- How many registers ST_REGS stores (R163). -/
@[simp] theorem State.length_regsTo (s : State) (x : Reg) : (s.regsTo x).length = x.val + 1 := by
  simp [State.regsTo]

/-- Register `k` of those ST_REGS stores (R163). -/
theorem State.getD_regsTo (s : State) (x : Reg) (k : Nat) (h : k ≤ x.val) :
    (s.regsTo x).getD k 0#8 = s.V.toList.getD k 0#8 := by
  simp [State.regsTo, List.getD, List.getElem?_take_of_lt (Nat.lt_succ_of_le h)]

/-- How many digits LD_B stores (R162). -/
@[simp] theorem length_digits (b : Byte) : (digits b).length = 3 := rfl

/-- A byte after a run of bytes has been stored (R43, R48). -/
theorem State.byteAt_storeBytes {s : State} (h : s.memory.wf = true) {base : Nat} {bs : List Byte}
    (hb : base + bs.length ≤ 4096) (c : Nat) :
    (s.storeBytes base bs).byteAt c =
      if base ≤ c ∧ c < base + bs.length then bs.getD (c - base) 0#8 else s.byteAt c :=
  Memory.read_writeBytes h hb c

/-- A key the scan finds is a pressed one, and no lower one is pressed (R157). -/
theorem lowestKey_some {keys : BitVec 16} {k : Nat} (h : lowestKey keys = some k) :
    k < 16 ∧ keys.getLsbD k = true ∧ ∀ j < k, keys.getLsbD j = false := by
  obtain ⟨h1, as, bs, h2, h3⟩ := List.find?_eq_some_iff_append.mp h
  have hlen : as.length = k := by
    have e : (List.range 16)[as.length]? = some k := by rw [h2]; simp
    obtain ⟨_, e2⟩ := List.getElem?_eq_some_iff.mp e
    simpa using e2
  refine ⟨?_, h1, fun j hj => ?_⟩
  · have : k ∈ List.range 16 := by rw [h2]; simp
    simpa using this
  · have hmem : j ∈ as := by
      have e : as[j]? = some j := by
        have e1 : (List.range 16)[j]? = as[j]? := by
          rw [h2]; exact List.getElem?_append_left (by omega)
        have hk : k ∈ List.range 16 := by rw [h2]; simp
        rw [← e1, List.getElem?_range (by simp at hk; omega)]
      exact List.mem_of_getElem? e
    simpa using h3 j hmem

/-- The scan finds nothing exactly when no key is pressed (R157). -/
theorem lowestKey_none {keys : BitVec 16} : lowestKey keys = none ↔ keys = 0#16 := by
  unfold lowestKey
  rw [List.find?_eq_none]
  constructor
  · intro h
    apply BitVec.eq_of_getLsbD_eq
    intro j hj
    simpa using h j (by simpa using hj)
  · rintro rfl
    simp

/-- A cell of the display after one cell has been toggled (R135). -/
theorem Display.cell_toggle (d : Display) (py : Fin 32) (px : Fin 64) (c : Fin 2048) :
    Display.cell (Display.toggle d py px) c =
      if c.val = py.val * 64 + px.val then !Display.cell d c else Display.cell d c := by
  unfold Display.cell Display.toggle
  rw [Vector.getElem_set]
  by_cases hrow : py.val = c.val / 64
  · have hd : d[py] = d[c.val / 64]'(by omega) := by simp [hrow]
    rw [if_pos hrow, hd]
    by_cases hcol : c.val % 64 = px.val
    · rw [if_pos (by omega)]
      simp [hcol]
    · rw [if_neg (by omega)]
      have : ¬ (c.val % 64 ≥ px.val ∧ c.val % 64 - px.val = 0) := by omega
      by_cases hge : c.val % 64 < px.val
      · simp [hge]
      · have h0 : c.val % 64 - px.val ≠ 0 := by omega
        simp [BitVec.getLsbD_one, h0]
  · rw [if_neg hrow, if_neg (by omega)]

end Sys2Proof.Machine
end

