-- ==== Sys2Proof/Laws/PerInstr.lean ====
section
/-! SUPPORT. Per instruction, about its syntax: the word the encoder writes has the pattern of the instruction's own row
of the opcode map (30_encoding R70). -/

namespace Sys2Proof.Laws

theorem and_ones4 (f : BitVec 4) : f &&& 0xF#4 = f := by
  revert f; decide

theorem and_ones8 (b : BitVec 8) : b &&& 0xFF#8 = b := BitVec.and_allOnes (w := 8)

theorem mask_address (f : BitVec 4) (nnn : BitVec 12) : (f ++ nnn) &&& 0xF000#16 = f ++ 0x000#12 := by
  have e : 0xF000#16 = 0xF#4 ++ 0x000#12 := by decide
  rw [e, BitVec.and_append, and_ones4, BitVec.and_zero]

theorem mask_registerByte (f x : BitVec 4) (nn : Byte) :
    (f ++ x ++ nn) &&& 0xF000#16 = f ++ 0x0#4 ++ 0x00#8 := by
  have e : 0xF000#16 = 0xF#4 ++ 0x0#4 ++ 0x00#8 := by decide
  rw [e, BitVec.and_append, BitVec.and_append, and_ones4, BitVec.and_zero, BitVec.and_zero]

theorem mask_registerSub (f x : BitVec 4) (nn : Byte) :
    (f ++ x ++ nn) &&& 0xF0FF#16 = f ++ 0x0#4 ++ nn := by
  have e : 0xF0FF#16 = 0xF#4 ++ 0x0#4 ++ 0xFF#8 := by decide
  rw [e, BitVec.and_append, BitVec.and_append, and_ones4, BitVec.and_zero, and_ones8]

theorem mask_nibbles (f x y n : BitVec 4) :
    (f ++ x ++ y ++ n) &&& 0xF00F#16 = f ++ 0x0#4 ++ 0x0#4 ++ n := by
  have e : 0xF00F#16 = 0xF#4 ++ 0x0#4 ++ 0x0#4 ++ 0xF#4 := by decide
  rw [e, BitVec.and_append, BitVec.and_append, BitVec.and_append, and_ones4, BitVec.and_zero, BitVec.and_zero, and_ones4]

theorem mask_nibblesN (f x y n : BitVec 4) :
    (f ++ x ++ y ++ n) &&& 0xF000#16 = f ++ 0x0#4 ++ 0x0#4 ++ 0x0#4 := by
  have e : 0xF000#16 = 0xF#4 ++ 0x0#4 ++ 0x0#4 ++ 0x0#4 := by decide
  rw [e, BitVec.and_append, BitVec.and_append, BitVec.and_append, and_ones4, BitVec.and_zero, BitVec.and_zero, BitVec.and_zero]

/-- The word of an instruction, under the mask of its row, is the match of its row (R70). -/
def RowPattern.Statement (i : Instr) : Prop := encode i &&& rowMask i.mnemonic = rowMatch i.mnemonic

theorem RowPattern.cls : RowPattern.Statement (.cls) := by
  unfold RowPattern.Statement; decide
theorem RowPattern.ret : RowPattern.Statement (.ret) := by
  unfold RowPattern.Statement; decide
theorem RowPattern.jp (nnn : BitVec 12) : RowPattern.Statement (.jp nnn) := mask_address _ nnn
theorem RowPattern.call (nnn : BitVec 12) : RowPattern.Statement (.call nnn) := mask_address _ nnn
theorem RowPattern.seNn (x : Reg) (nn : Byte) : RowPattern.Statement (.seNn x nn) := mask_registerByte _ (regBits x) nn
theorem RowPattern.sneNn (x : Reg) (nn : Byte) : RowPattern.Statement (.sneNn x nn) := mask_registerByte _ (regBits x) nn
theorem RowPattern.seVy (x : Reg) (y : Reg) : RowPattern.Statement (.seVy x y) := mask_nibbles _ (regBits x) (regBits y) _
theorem RowPattern.ldNn (x : Reg) (nn : Byte) : RowPattern.Statement (.ldNn x nn) := mask_registerByte _ (regBits x) nn
theorem RowPattern.addNn (x : Reg) (nn : Byte) : RowPattern.Statement (.addNn x nn) := mask_registerByte _ (regBits x) nn
theorem RowPattern.ldVy (x : Reg) (y : Reg) : RowPattern.Statement (.ldVy x y) := mask_nibbles _ (regBits x) (regBits y) _
theorem RowPattern.orVy (x : Reg) (y : Reg) : RowPattern.Statement (.orVy x y) := mask_nibbles _ (regBits x) (regBits y) _
theorem RowPattern.andVy (x : Reg) (y : Reg) : RowPattern.Statement (.andVy x y) := mask_nibbles _ (regBits x) (regBits y) _
theorem RowPattern.xorVy (x : Reg) (y : Reg) : RowPattern.Statement (.xorVy x y) := mask_nibbles _ (regBits x) (regBits y) _
theorem RowPattern.addVy (x : Reg) (y : Reg) : RowPattern.Statement (.addVy x y) := mask_nibbles _ (regBits x) (regBits y) _
theorem RowPattern.sub (x : Reg) (y : Reg) : RowPattern.Statement (.sub x y) := mask_nibbles _ (regBits x) (regBits y) _
theorem RowPattern.shr (x : Reg) (y : Reg) : RowPattern.Statement (.shr x y) := mask_nibbles _ (regBits x) (regBits y) _
theorem RowPattern.subn (x : Reg) (y : Reg) : RowPattern.Statement (.subn x y) := mask_nibbles _ (regBits x) (regBits y) _
theorem RowPattern.shl (x : Reg) (y : Reg) : RowPattern.Statement (.shl x y) := mask_nibbles _ (regBits x) (regBits y) _
theorem RowPattern.sneVy (x : Reg) (y : Reg) : RowPattern.Statement (.sneVy x y) := mask_nibbles _ (regBits x) (regBits y) _
theorem RowPattern.ldI (nnn : BitVec 12) : RowPattern.Statement (.ldI nnn) := mask_address _ nnn
theorem RowPattern.jpV0 (nnn : BitVec 12) : RowPattern.Statement (.jpV0 nnn) := mask_address _ nnn
theorem RowPattern.rnd (x : Reg) (nn : Byte) : RowPattern.Statement (.rnd x nn) := mask_registerByte _ (regBits x) nn
theorem RowPattern.drw (x : Reg) (y : Reg) (n : Fin 16) : RowPattern.Statement (.drw x y n) := mask_nibblesN _ (regBits x) (regBits y) _
theorem RowPattern.skp (x : Reg) : RowPattern.Statement (.skp x) := mask_registerSub _ (regBits x) _
theorem RowPattern.sknp (x : Reg) : RowPattern.Statement (.sknp x) := mask_registerSub _ (regBits x) _
theorem RowPattern.ldVxDt (x : Reg) : RowPattern.Statement (.ldVxDt x) := mask_registerSub _ (regBits x) _
theorem RowPattern.ldVxK (x : Reg) : RowPattern.Statement (.ldVxK x) := mask_registerSub _ (regBits x) _
theorem RowPattern.ldDtVx (x : Reg) : RowPattern.Statement (.ldDtVx x) := mask_registerSub _ (regBits x) _
theorem RowPattern.ldStVx (x : Reg) : RowPattern.Statement (.ldStVx x) := mask_registerSub _ (regBits x) _
theorem RowPattern.addI (x : Reg) : RowPattern.Statement (.addI x) := mask_registerSub _ (regBits x) _
theorem RowPattern.ldF (x : Reg) : RowPattern.Statement (.ldF x) := mask_registerSub _ (regBits x) _
theorem RowPattern.ldB (x : Reg) : RowPattern.Statement (.ldB x) := mask_registerSub _ (regBits x) _
theorem RowPattern.stRegs (x : Reg) : RowPattern.Statement (.stRegs x) := mask_registerSub _ (regBits x) _
theorem RowPattern.ldRegs (x : Reg) : RowPattern.Statement (.ldRegs x) := mask_registerSub _ (regBits x) _

end Sys2Proof.Laws
end

