-- ==== Sys2Proof/Laws/Safety.lean ====
section
/-! SUPPORT. The laws of Safety.lean's terms. -/

namespace Sys2Proof.Safety

open Sys2Proof.Machine

/-- A collision is a lit cell that is drawn at (45_draw_D R138, R140). -/
theorem collides_iff {s : State} {x y : Reg} {n : Fin 16} :
    collides s x y n = true ↔ ∃ c : Fin 2048, drawnAt s x y n c.val = true ∧ s.cell c = true := by
  simp only [collides, List.any_eq_true, List.mem_finRange, true_and, Bool.and_eq_true]
  constructor
  · rintro ⟨py, px, h1, h2⟩
    exact ⟨⟨py.val * 64 + px.val, by omega⟩, h1, h2⟩
  · rintro ⟨c, h1, h2⟩
    have e : c.val / 64 * 64 + c.val % 64 = c.val := by omega
    exact ⟨⟨c.val / 64, by omega⟩, ⟨c.val % 64, by omega⟩, by simpa only [e] using h1, by simpa only [e] using h2⟩

end Sys2Proof.Safety
end

