-- ==== Sys2Proof/Laws/Step.lean ====
section
/-! SUPPORT. Everything one step can do, said once. -/

namespace Sys2Proof.Machine

/-- A step is a no-op under a latched fault, or takes the fetch's fault, or runs `Exec` on the word fetched (R80). -/
theorem step_cases (s : State) :
    (s.fault ≠ none ∧ step s = .next s) ∨
    (s.fault = none ∧ 0xFFE < s.pc.toNat ∧
      step s = .next { s with fault := some (.memOutOfRange (max s.pc.toNat 0x1000)) }) ∨
    (s.fault = none ∧ s.pc.toNat ≤ 0xFFE ∧
      step s = execWord (wordOfBytes (s.byteAt s.pc.toNat) (s.byteAt (s.pc.toNat + 1))) s) := by
  rcases hf : s.fault with _ | f
  · by_cases h : s.pc.toNat ≤ 0xFFE
    · exact .inr (.inr ⟨rfl, h, by simp only [step, hf, State.fetch_ok h]⟩)
    · exact .inr (.inl ⟨rfl, by omega, by simp only [step, hf, State.fetch_fault (Nat.lt_of_not_le h), State.raise]⟩)
  · exact .inl ⟨by simp, by simp only [step, hf]⟩

end Sys2Proof.Machine
end

