-- ==== Sys2Proof/Tests/Slice0.lean ====
section
/-! SUPPORT. Tests. Expected results are the spec's: the vectors of 95_test_vectors (named T-.., S..) and words written
out from the opcode map of 30_encoding R70. Then, for every statement with hypotheses, witnesses that something meets
them, at the boundary values of each clause. -/

namespace Sys2Proof.Tests

open Sys2Proof.Machine Sys2Proof.Safety

/-- The reset state with some registers overridden. -/
def regs (l : List (Reg × Byte)) : State := l.foldl (fun s p => s.setReg p.1 p.2) State.reset

/-- A state with bytes placed in memory. -/
def poke (a : Nat) (bs : List Byte) (s : State) : State := { s with memory := s.memory.writeBytes a bs }

/-- Whether an answer is a next state with a property. -/
def holds (r : Result) (p : State → Bool) : Bool :=
  match r with
  | .next t => p t
  | _ => false

/-- `Exec(oc)` (R86) answers a next state with a property. -/
def execHolds (oc : Word) (s : State) (p : State → Bool) : Bool := holds (execWord oc s) p

/-- `V[r]`, `VF` and `pc` together. -/
def sees (r : Reg) (v vf : Byte) (pc : Word) (t : State) : Bool :=
  decide (t.V[r] = v) && decide (t.V[VF] = vf) && decide (t.pc = pc) && decide (t.fault = none)

/-! ### Assembler lines (R75): an ill-formed line for each check -/

theorem test_line_count_refused :
    (AsmLine.mk .ADD_VY [1]).rangesOk = true ∧ (AsmLine.mk .ADD_VY [1]).countOk = false ∧
    (AsmLine.mk .ADD_VY [1]).toInstr = none ∧ (AsmLine.mk .CLS [0]).WellFormed = false := by decide

theorem test_line_range_refused :
    (AsmLine.mk .LD_NN [1, 256]).countOk = true ∧ (AsmLine.mk .LD_NN [1, 256]).toInstr = none ∧
    (AsmLine.mk .LD_NN [16, 0]).WellFormed = false ∧ (AsmLine.mk .OR [0, 16]).WellFormed = false ∧
    (AsmLine.mk .DRW [0, 0, 16]).WellFormed = false ∧ (AsmLine.mk .JP [4096]).WellFormed = false := by decide

theorem test_line_accepted :
    (AsmLine.mk .DRW [1, 2, 15]).toInstr = some (.drw 1 2 15) ∧
    (AsmLine.mk .LD_NN [15, 255]).toInstr = some (.ldNn 15 0xFF#8) ∧
    (AsmLine.mk .JP [4095]).toInstr = some (.jp 0xFFF#12) ∧ (AsmLine.mk .SHR [3]).toInstr = some (.shr 3 0) ∧
    (AsmLine.mk .CLS []).toInstr = some .cls := by decide

/-! ### Decoding: a word for every constructor (R70; T-K) -/

theorem test_decode_flow :
    decode 0x00E0#16 = .ok .cls ∧ decode 0x00EE#16 = .ok .ret ∧ decode 0x1ABC#16 = .ok (.jp 0xABC#12) ∧
    decode 0x2FFF#16 = .ok (.call 0xFFF#12) := by decide

theorem test_decode_immediate :
    decode 0x3A42#16 = .ok (.seNn 10 0x42#8) ∧ decode 0x4A43#16 = .ok (.sneNn 10 0x43#8) ∧
    decode 0x5AB0#16 = .ok (.seVy 10 11) ∧ decode 0x6F7B#16 = .ok (.ldNn 15 0x7B#8) ∧
    decode 0x7105#16 = .ok (.addNn 1 0x05#8) := by decide

theorem test_decode_alu :
    decode 0x8AB0#16 = .ok (.ldVy 10 11) ∧ decode 0x8121#16 = .ok (.orVy 1 2) ∧ decode 0x8122#16 = .ok (.andVy 1 2) ∧
    decode 0x8123#16 = .ok (.xorVy 1 2) ∧ decode 0x8AB4#16 = .ok (.addVy 10 11) := by decide

theorem test_decode_alu_shift :
    decode 0x8125#16 = .ok (.sub 1 2) ∧ decode 0x8AB6#16 = .ok (.shr 10 11) ∧ decode 0x8127#16 = .ok (.subn 1 2) ∧
    decode 0x8F0E#16 = .ok (.shl 15 0) := by decide

theorem test_decode_misc :
    decode 0x9120#16 = .ok (.sneVy 1 2) ∧ decode 0xAFFF#16 = .ok (.ldI 0xFFF#12) ∧
    decode 0xB300#16 = .ok (.jpV0 0x300#12) ∧ decode 0xC13C#16 = .ok (.rnd 1 0x3C#8) := by decide

theorem test_decode_draw_keys :
    decode 0xD5C3#16 = .ok (.drw 5 12 3) ∧ decode 0xE19E#16 = .ok (.skp 1) ∧ decode 0xEFA1#16 = .ok (.sknp 15) := by
  decide

theorem test_decode_f :
    decode 0xF307#16 = .ok (.ldVxDt 3) ∧ decode 0xFA0A#16 = .ok (.ldVxK 10) ∧ decode 0xF215#16 = .ok (.ldDtVx 2) ∧
    decode 0xF218#16 = .ok (.ldStVx 2) ∧ decode 0xF11E#16 = .ok (.addI 1) := by decide

theorem test_decode_f_memory :
    decode 0xF029#16 = .ok (.ldF 0) ∧ decode 0xF333#16 = .ok (.ldB 3) ∧ decode 0xFF55#16 = .ok (.stRegs 15) ∧
    decode 0xF765#16 = .ok (.ldRegs 7) := by decide

/-- T-K, the words that are no instruction. -/
theorem test_decode_unknown :
    [0x0000#16, 0x00E1#16, 0x00FE#16, 0x01E0#16, 0x0FEE#16, 0x5121#16, 0x8008#16, 0x800F#16].all
      (fun oc => (decode oc).toOption.isNone) = true ∧
    [0x9001#16, 0xE09F#16, 0xE0A0#16, 0xE000#16, 0xF000#16, 0xF066#16, 0xF130#16, 0xFFFF#16].all
      (fun oc => (decode oc).toOption.isNone) = true := by decide

/-- Bytes high first (R46); fewer than two bytes are no instruction. -/
theorem test_decode_bytes :
    decodeBytes [0x6A#8, 0x55#8, 0x99#8] = .ok (.ldNn 10 0x55#8, [0x99#8]) ∧
    decodeBytes [0x6A#8] = .error .tooShort ∧ decodeBytes [] = .error .tooShort ∧
    encodeBytes (.drw 5 12 3) = [0xD5#8, 0xC3#8] := by decide

/-- The opcode table's own numbering of bits (R4). -/
theorem test_table_word :
    decodeTableWord 16 0xD5C3 = some (.drw 5 12 3) ∧ decodeTableWord 16 0x0000 = none ∧
    decodeTableWord 16 0x8F0E = some (.shl 15 0) := by decide

/-! ### Flow (T-A) -/

theorem test_cls_keeps_dirty : -- T-A1, T-A1b
    execHolds 0x00E0#16 { State.reset with display := Vector.replicate 32 1#64, isDrawing := true }
      (fun t => decide (t.display = State.reset.display) && t.isDrawing && decide (t.pc = 0x0202#16)) = true ∧
    execHolds 0x00E0#16 { State.reset with display := Vector.replicate 32 1#64 } (fun t => !t.isDrawing) = true := by
  decide

theorem test_ret : -- T-A2, T-A3
    execHolds 0x00EE#16 { State.reset with sp := 2, stack := State.reset.stack.set 1 0x0ABC#16, pc := 0x0400#16 }
      (fun t => decide (t.pc = 0x0ABC#16) && decide (t.sp = 1) && decide (t.stack[1] = 0x0ABC#16)) = true ∧
    execWord 0x00EE#16 State.reset = .next { State.reset with fault := some .stackUnderflow } := ⟨by decide, rfl⟩

theorem test_call : -- S1, T-A6
    execHolds 0x2ABC#16 { State.reset with sp := 15, pc := 0x02F0#16 }
      (fun t => decide (t.pc = 0x0ABC#16) && decide (t.sp = 16) && decide (t.stack[15] = 0x02F2#16)) = true := by decide

theorem test_call_overflow : -- T-A7
    execWord 0x2ABC#16 { State.reset with sp := 16, pc := 0x02F0#16 } =
      .next { State.reset with sp := 16, pc := 0x02F0#16, fault := some .stackOverflow } := rfl

theorem test_jp : -- S2
    execHolds 0x1123#16 State.reset (fun t => decide (t.pc = 0x0123#16)) = true := by decide

/-! ### Skips and immediates (T-B) -/

theorem test_se_nn_reads_nibble_2 : -- T-B1, T-B1b
    execHolds 0x3A42#16 (regs [(10, 0x42#8)]) (fun t => decide (t.pc = 0x0204#16)) = true ∧
    execHolds 0x3A43#16 (regs [(10, 0x42#8)]) (fun t => decide (t.pc = 0x0202#16)) = true := by decide

theorem test_sne_nn : -- T-B2, T-B2b
    execHolds 0x4A42#16 (regs [(10, 0x42#8)]) (fun t => decide (t.pc = 0x0202#16)) = true ∧
    execHolds 0x4A43#16 (regs [(10, 0x42#8)]) (fun t => decide (t.pc = 0x0204#16)) = true := by decide

theorem test_se_vy : -- T-B3, T-B3b
    execHolds 0x5AB0#16 (regs [(10, 9#8), (11, 9#8)]) (fun t => decide (t.pc = 0x0204#16)) = true ∧
    execHolds 0x5AB0#16 (regs [(10, 9#8), (11, 8#8)]) (fun t => decide (t.pc = 0x0202#16)) = true := by decide

theorem test_ld_nn_into_vf : -- T-B5
    execHolds 0x6F7B#16 State.reset (sees 15 0x7B#8 0x7B#8 0x0202#16) = true := by decide

theorem test_add_nn_no_flag : -- T-B6b, T-B6c
    execHolds 0x7F02#16 (regs [(15, 0xFF#8)]) (sees 15 0x01#8 0x01#8 0x0202#16) = true ∧
    execHolds 0x7105#16 (regs [(1, 0xFE#8), (15, 0x55#8)]) (sees 1 0x03#8 0x55#8 0x0202#16) = true := by decide

theorem test_sne_vy : -- T-B7, T-B7b
    execHolds 0x9AB0#16 (regs [(10, 1#8), (11, 2#8)]) (fun t => decide (t.pc = 0x0204#16)) = true ∧
    execHolds 0x9AB0#16 (regs [(10, 2#8), (11, 2#8)]) (fun t => decide (t.pc = 0x0202#16)) = true := by decide

/-! ### Family 8 (T-C) -/

theorem test_ld_vy : -- T-C1
    execHolds 0x8AB0#16 (regs [(11, 0x9C#8), (15, 0x33#8)]) (sees 10 0x9C#8 0x33#8 0x0202#16) = true := by decide

theorem test_or : -- T-C2
    execHolds 0x8121#16 (regs [(1, 0x5A#8), (2, 0x0F#8), (15, 0x33#8)]) (sees 1 0x5F#8 0x33#8 0x0202#16) = true := by
  decide

theorem test_and : -- T-C2b
    execHolds 0x8122#16 (regs [(1, 0x5A#8), (2, 0x0F#8), (15, 0x33#8)]) (sees 1 0x0A#8 0x33#8 0x0202#16) = true := by
  decide

theorem test_xor : -- T-C2c, T-C2d
    execHolds 0x8123#16 (regs [(1, 0x5A#8), (2, 0x0F#8), (15, 0x33#8)]) (sees 1 0x55#8 0x33#8 0x0202#16) = true ∧
    execHolds 0x8113#16 (regs [(1, 0x5A#8)]) (sees 1 0x00#8 0x00#8 0x0202#16) = true := by decide

theorem test_add_vy_carry : -- T-C3, T-C3c
    execHolds 0x8124#16 (regs [(1, 0xFF#8), (2, 0xFF#8)]) (sees 1 0xFE#8 0x01#8 0x0202#16) = true ∧
    execHolds 0x8124#16 (regs [(1, 0xFF#8), (15, 0x09#8)]) (sees 1 0xFF#8 0x00#8 0x0202#16) = true := by decide

theorem test_add_vy_vf : -- T-C4, T-C5: VF as destination, VF as addend
    execHolds 0x8F14#16 (regs [(15, 0xFF#8), (1, 0x01#8)]) (sees 15 0x00#8 0x00#8 0x0202#16) = true ∧
    execHolds 0x81F4#16 (regs [(1, 0xF0#8), (15, 0x20#8)]) (sees 1 0x10#8 0x01#8 0x0202#16) = true := by decide

theorem test_sub_equal_is_0 : -- T-C7, T-C7b
    execHolds 0x8125#16 (regs [(1, 0x07#8), (2, 0x07#8), (15, 0x01#8)]) (sees 1 0x00#8 0x00#8 0x0202#16) = true ∧
    execHolds 0x8125#16 (regs [(1, 0x03#8), (2, 0x05#8), (15, 0x01#8)]) (sees 1 0xFE#8 0x00#8 0x0202#16) = true := by
  decide

theorem test_sub_vf : -- T-C7d, T-C7f
    execHolds 0x8F15#16 (regs [(15, 0x09#8), (1, 0x04#8)]) (sees 15 0x05#8 0x05#8 0x0202#16) = true ∧
    execHolds 0x81F5#16 (regs [(1, 0x09#8), (15, 0x05#8)]) (sees 1 0x04#8 0x01#8 0x0202#16) = true := by decide

theorem test_shr_ignores_y : -- T-C8, T-C8d
    execHolds 0x8AB6#16 (regs [(10, 0x0D#8), (11, 0xFF#8)]) (sees 10 0x06#8 0x01#8 0x0202#16) = true ∧
    execHolds 0x8F06#16 (regs [(15, 0x07#8)]) (sees 15 0x03#8 0x03#8 0x0202#16) = true := by decide

theorem test_subn : -- T-C9, T-C9d
    execHolds 0x8127#16 (regs [(1, 0x05#8), (2, 0x03#8), (15, 0x01#8)]) (sees 1 0xFE#8 0x00#8 0x0202#16) = true ∧
    execHolds 0x81F7#16 (regs [(1, 0x02#8), (15, 0x09#8)]) (sees 1 0x07#8 0x01#8 0x0202#16) = true := by decide

theorem test_shl_high_nibble : -- T-C10, T-C10e
    execHolds 0x810E#16 (regs [(1, 0x7F#8)]) (sees 1 0xFE#8 0x70#8 0x0202#16) = true ∧
    execHolds 0x812E#16 (regs [(1, 0x40#8), (2, 0xFF#8)]) (sees 1 0x80#8 0x40#8 0x0202#16) = true := by decide

/-! ### Families A, B, C (T-D, S9) -/

theorem test_ld_i : -- T-D1
    execHolds 0xAFFF#16 { State.reset with I := 0x0123#16 }
      (fun t => decide (t.I = 0x0FFF#16) && decide (t.pc = 0x0202#16)) = true := by decide

theorem test_jp_v0_not_masked : -- T-D2, T-D3
    execHolds 0xBFFF#16 (regs [(0, 0xFF#8)]) (fun t => decide (t.pc = 0x10FE#16)) = true ∧
    execHolds 0xB300#16 (regs [(0, 0x04#8), (3, 0x99#8)]) (fun t => decide (t.pc = 0x0304#16)) = true := by decide

/-- S9, T-D4c, with the drawn byte given: the byte itself is free in the model. -/
theorem test_rnd :
    holds (execRndWith 0x7F#8 1 0x0F#8 State.reset) (fun t => sees 1 0x0F#8 0x00#8 0x0202#16 t && t.draws == 1) = true ∧
    holds (execRndWith 0xA5#8 1 0x3C#8 State.reset) (sees 1 0x24#8 0x00#8 0x0202#16) = true := by decide

/-! ### DRW (T-E, S6) -/

theorem test_drw_wraps : -- T-E1, by rows: cells 57 to 63 and 0
    execHolds 0xD121#16 (poke 0x300 [0xFF#8] { regs [(1, 57#8)] with I := 0x0300#16 })
      (fun t => decide (t.display = State.reset.display.set 0 0xFE00000000000001#64) && t.isDrawing &&
        sees 1 57#8 0x00#8 0x0202#16 t) = true := by decide

theorem test_drw_erases : -- P3, the state after step 4 and after step 5
    holds (execDrw 1 2 2 (poke 0x20C [0xC0#8, 0x80#8] { regs [(1, 0x3F#8), (2, 0x1F#8)] with I := 0x020C#16 }))
      (fun t => decide (t.display = (State.reset.display.set 31 0x8000000000000001#64).set 0 0x8000000000000000#64) &&
        sees 1 0x3F#8 0x00#8 0x0202#16 t &&
        holds (execDrw 1 2 2 t) fun u => decide (u.display = State.reset.display) && sees 1 0x3F#8 0x01#8 0x0204#16 u) =
      true := by decide

/-! ### Keys (T-F) -/

theorem test_skp : -- T-F1, T-F3
    execHolds 0xE49E#16 { regs [(4, 0x0A#8)] with keys := 0x0400#16 } (fun t => decide (t.pc = 0x0204#16)) = true ∧
    execHolds 0xE49E#16 { regs [(4, 0x1A#8)] with keys := 0xFFFF#16 } (fun t => decide (t.pc = 0x0202#16)) = true := by
  decide

theorem test_sknp : -- T-F2, T-F3b
    execHolds 0xE4A1#16 { regs [(4, 0x0A#8)] with keys := 0x0400#16 } (fun t => decide (t.pc = 0x0202#16)) = true ∧
    execHolds 0xE4A1#16 { regs [(4, 0x1A#8)] with keys := 0xFFFF#16 } (fun t => decide (t.pc = 0x0204#16)) = true := by
  decide

/-! ### Family F (T-G) -/

theorem test_ld_vx_dt : -- T-G1
    execHolds 0xF307#16 { State.reset with delayTimer := 0x2A#8 }
      (fun t => sees 3 0x2A#8 0x00#8 0x0202#16 t && decide (t.delayTimer = 0x2A#8)) = true := by decide

theorem test_key_wait : -- T-G2, T-G2b
    execWord 0xF50A#16 (regs [(5, 0x77#8)]) = .next (regs [(5, 0x77#8)]) ∧
    execHolds 0xF50A#16 { regs [(5, 0x77#8)] with keys := 0x8100#16 } (sees 5 0x08#8 0x00#8 0x0202#16) = true :=
  ⟨rfl, by decide⟩

theorem test_timers : -- T-G3
    execHolds 0xF215#16 (regs [(2, 0x3C#8)])
      (fun t => decide (t.delayTimer = 0x3C#8) && decide (t.soundTimer = 0#8)) = true ∧
    execHolds 0xF218#16 (regs [(2, 0x3C#8)])
      (fun t => decide (t.soundTimer = 0x3C#8) && decide (t.delayTimer = 0#8)) = true := by decide

theorem test_add_i_flag : -- T-G4, T-G4b
    execHolds 0xF11E#16 { regs [(1, 1#8), (15, 9#8)] with I := 0x0FFE#16 }
      (fun t => decide (t.I = 0x0FFF#16) && decide (t.V[VF] = 0#8)) = true ∧
    execHolds 0xF11E#16 { regs [(1, 1#8)] with I := 0x0FFF#16 }
      (fun t => decide (t.I = 0x1000#16) && decide (t.V[VF] = 1#8)) = true := by decide

theorem test_add_i_corners : -- T-G4d, T-G4e
    execHolds 0xFF1E#16 { regs [(15, 5#8)] with I := 0x0100#16 }
      (fun t => decide (t.I = 0x0105#16) && decide (t.V[VF] = 0#8)) = true ∧
    execHolds 0xF11E#16 { regs [(1, 2#8)] with I := 0xFFFF#16 }
      (fun t => decide (t.I = 0x0001#16) && decide (t.V[VF] = 1#8)) = true := by decide

theorem test_ld_f_not_masked : -- T-G5, T-G5b
    execHolds 0xF029#16 (regs [(0, 0x0F#8)]) (fun t => decide (t.I = 0x004B#16)) = true ∧
    execHolds 0xF029#16 (regs [(0, 0xFF#8)]) (fun t => decide (t.I = 0x04FB#16)) = true := by decide

theorem test_ld_b : -- T-G6c, T-G6d
    execHolds 0xF333#16 { regs [(3, 0xC7#8)] with I := 0x0FFD#16 }
      (fun t => decide (t.memory = [(0xFFD, 1#8), (0xFFE, 9#8), (0xFFF, 9#8)]) && decide (t.I = 0x0FFD#16)) = true ∧
    execWord 0xF333#16 { regs [(3, 0xC7#8)] with I := 0x0FFE#16 } =
      .next { regs [(3, 0xC7#8)] with I := 0x0FFE#16, fault := some (.memOutOfRange 0x1000) } := ⟨by decide, rfl⟩

theorem test_st_regs : -- T-G7, T-G7c
    execHolds 0xF055#16 { regs [(0, 0xAB#8), (1, 0xCD#8)] with I := 0x0400#16 }
      (fun t => decide (t.memory = [(0x400, 0xAB#8)]) && decide (t.I = 0x0401#16)) = true ∧
    execWord 0xFF55#16 { regs [(0, 0xAB#8)] with I := 0x0FF1#16 } =
      .next { regs [(0, 0xAB#8)] with I := 0x0FF1#16, fault := some (.memOutOfRange 0x1000) } := ⟨by decide, rfl⟩

theorem test_st_regs_fault_address : -- T-G7e
    execWord 0xF055#16 { State.reset with I := 0x1234#16 } =
      .next { State.reset with I := 0x1234#16, fault := some (.memOutOfRange 0x1234) } := rfl

theorem test_ld_regs : -- T-G8, T-G8d
    execHolds 0xF265#16 (poke 0x400 [1#8, 2#8, 3#8, 4#8] { regs [(3, 0x99#8)] with I := 0x0400#16 })
      (fun t => decide (t.V.toList.take 4 = [1#8, 2#8, 3#8, 0x99#8]) && decide (t.I = 0x0403#16)) = true ∧
    execHolds 0xF165#16 (poke 0xFFF [0x5A#8] { State.reset with I := 0x0FFF#16 })
      (fun t => decide (t.fault = some (.memOutOfRange 0x1000)) && decide (t.V = State.reset.V) &&
        decide (t.I = 0x0FFF#16)) = true := by decide

/-! ### The step, the host's events (T-H, T-I, T-J) -/

theorem test_step_last_word : -- T-H1
    holds (step (poke 0xFFE [0x6A#8, 0x55#8] { State.reset with pc := 0x0FFE#16 })) (sees 10 0x55#8 0x00#8 0x1000#16) =
      true := by decide

theorem test_step_fetch_faults : -- T-H2, T-H5
    step { State.reset with pc := 0x0FFF#16 } =
      .next { State.reset with pc := 0x0FFF#16, fault := some (.memOutOfRange 0x1000) } ∧
    step { State.reset with pc := 0xFFFE#16 } =
      .next { State.reset with pc := 0xFFFE#16, fault := some (.memOutOfRange 0xFFFE) } := ⟨rfl, rfl⟩

theorem test_step_unknown : -- T-H3
    step State.reset = .next { State.reset with pc := 0x0202#16, diags := [0x0000#16] } := rfl

theorem test_step_halted : -- T-H4
    step { State.reset with fault := some .stackUnderflow, delayTimer := 5#8 } =
      .next { State.reset with fault := some .stackUnderflow, delayTimer := 5#8 } ∧
    (timerTick { State.reset with fault := some .stackUnderflow, delayTimer := 5#8, soundTimer := 1#8 }).delayTimer =
      4#8 := ⟨rfl, by decide⟩

theorem test_ticks : -- T-I2, T-I4
    timerTick State.reset = State.reset ∧
    timerTick (timerTick (timerTick { State.reset with delayTimer := 2#8, soundTimer := 1#8 })) = State.reset :=
  ⟨rfl, rfl⟩

theorem test_load : -- T-J3, T-J6
    loadProgram [] State.reset = .next State.reset ∧
    holds (loadProgram [0x60#8, 0x2A#8] State.reset) (fun t => holds (step t) (sees 0 0x2A#8 0x00#8 0x0202#16)) = true :=
  ⟨rfl, by decide⟩

theorem test_load_too_large : -- T-J2
    loadProgram (List.replicate 3585 0x11#8) State.reset = .refused (.programTooLarge 3585) := by
  unfold loadProgram
  rw [List.length_replicate, if_pos (by omega)]

theorem test_key_event : -- T-J4
    (keyUpdate 0x8001#16 State.reset).keys.getLsbD 0 = true ∧ (keyUpdate 0x8001#16 State.reset).keys.getLsbD 15 = true ∧
    (keyUpdate 0x8001#16 State.reset).keys.getLsbD 1 = false := by decide

/-- The cause codes of R180. -/
theorem test_fault_codes :
    [none, some Fault.stackUnderflow, some Fault.stackOverflow, some (Fault.memOutOfRange 0x1000)].map faultCode =
      [0, 1, 2, 3] := by decide

/-- An instruction placed where the next step fetches is the one the step runs, from reset, at the end of memory, and
where `pc` is past it or a fault is latched. -/
theorem test_with_fetch_word :
    holds (step (State.reset.withFetchWord 16 0x6A55)) (sees 10 0x55#8 0x00#8 0x0202#16) = true ∧
    holds (step ({ State.reset with pc := 0x0FFE#16 }.withFetchWord 16 0x6A55)) (sees 10 0x55#8 0x00#8 0x1000#16) = true ∧
    holds (step ({ State.reset with pc := 0x0FFF#16, fault := some .stackOverflow }.withFetchWord 16 0x6A55))
      (sees 10 0x55#8 0x00#8 0x0202#16) = true := by decide

/-! ### Witnesses: the hypotheses of the statements can be met -/

theorem witness_encode_of_decode : decode 0x8AB4#16 = .ok (.addVy 10 11) ∧ decode 0xFF65#16 = .ok (.ldRegs 15) := by
  decide

theorem witness_opcode_map :
    0x8AB4#16 &&& rowMask .ADD_VY = rowMatch .ADD_VY ∧ 0x00E0#16 &&& rowMask .CLS = rowMatch .CLS := by decide

/-- One word of each clause of R72, and next to each a word that is an instruction. -/
theorem witness_unknown_words :
    decode 0x00E1#16 = .error .family0 ∧ decode 0x5AB1#16 = .error .family5 ∧ decode 0x9AB5#16 = .error .family9 ∧
    decode 0x812F#16 = .error .family8 ∧ decode 0xE49F#16 = .error .familyE ∧ decode 0xFFFF#16 = .error .familyF := by
  decide

/-- StepRunsDecodedInstruction at the last `pc` that can be fetched. -/
theorem witness_step_runs :
    let s := poke 0xFFE [0x6A#8, 0x55#8] { State.reset with pc := 0x0FFE#16 }
    s.fault = none ∧ s.pc.toNat ≤ 0xFFE ∧
      decode (wordOfBytes (s.byteAt s.pc.toNat) (s.byteAt (s.pc.toNat + 1))) = .ok (.ldNn 10 0x55#8) := by decide

/-- FetchIsBigEndianOrFaults, both clauses at the boundary. -/
theorem witness_fetch :
    (0x0FFE#16).toNat ≤ 0xFFE ∧ (0x0FFF#16).toNat > 0xFFE ∧ { State.reset with pc := 0x0FFF#16 }.fault = none := by
  decide

theorem witness_unknown_word :
    State.reset.fault = none ∧ State.reset.fetch = .ok 0x0000#16 ∧ decode 0x0000#16 = .error .family0 :=
  ⟨rfl, rfl, by decide⟩

theorem witness_halted : { State.reset with fault := some .stackOverflow }.fault ≠ none := by decide

/-- The fault conditions of InstructionsFaultExactlyWhereTabled and the statements by instruction, each on both sides of
its boundary. -/
theorem witness_stack_faults :
    faultOf .ret State.reset = some .stackUnderflow ∧ faultOf .ret { State.reset with sp := 1 } = none ∧
    faultOf (.call 0#12) { State.reset with sp := 16 } = some .stackOverflow ∧
    faultOf (.call 0#12) { State.reset with sp := 15 } = none := by decide

theorem witness_range_faults :
    faultOf (.drw 0 0 1) { State.reset with I := 0x0FFF#16 } = none ∧
    faultOf (.drw 0 0 2) { State.reset with I := 0x0FFF#16 } = some (.memOutOfRange 0x1000) ∧
    faultOf (.drw 0 0 0) { State.reset with I := 0xFFFF#16 } = none ∧
    faultOf (.ldB 0) { State.reset with I := 0x0FFD#16 } = none ∧
    faultOf (.ldB 0) { State.reset with I := 0x0FFE#16 } = some (.memOutOfRange 0x1000) := by decide

theorem witness_register_range_faults :
    faultOf (.stRegs 15) { State.reset with I := 0x0FF0#16 } = none ∧
    faultOf (.stRegs 15) { State.reset with I := 0x0FF1#16 } = some (.memOutOfRange 0x1000) ∧
    faultOf (.ldRegs 0) { State.reset with I := 0x0FFF#16 } = none ∧
    faultOf (.ldRegs 1) { State.reset with I := 0x0FFF#16 } = some (.memOutOfRange 0x1000) ∧
    faultOf (.ldRegs 0) { State.reset with I := 0x1234#16 } = some (.memOutOfRange 0x1234) := by decide

/-- StepFaultIsPrecise: a step that completes and one that faults. -/
theorem witness_step_fault :
    (State.reset.fault = none ∧ ∃ t, step State.reset = .next t) ∧
    ∃ t, step { State.reset with pc := 0x0FFF#16 } = .next t ∧ t.fault ≠ none :=
  ⟨⟨rfl, _, rfl⟩, _, rfl, by decide⟩

/-- SelfJumpLeavesStateUnchanged, at the program base and at the last address a `JP` can be fetched from. -/
theorem witness_self_jump :
    (let s := poke 0x200 [0x12#8, 0x00#8] State.reset
     s.fault = none ∧ s.pc.toNat = (0x200#12).toNat ∧ s.fetch.toOption = some (encode (.jp 0x200#12))) ∧
    (let s := poke 0xFFE [0x1F#8, 0xFE#8] { State.reset with pc := 0x0FFE#16 }
     s.pc.toNat = (0xFFE#12).toNat ∧ (0xFFE#12).toNat ≤ 0xFFE ∧ s.fetch.toOption = some (encode (.jp 0xFFE#12))) := by
  decide

/-- The column statements: `faultOf i s = none`, with a canonical memory, and `faultOf i s ≠ none`. -/
theorem witness_columns :
    Canonical State.reset ∧ faultOf .cls State.reset = none ∧ faultOf .ret State.reset ≠ none ∧
    Canonical { State.reset with I := 0x0FF0#16 } ∧ faultOf (.stRegs 15) { State.reset with I := 0x0FF0#16 } = none := by
  refine ⟨rfl, ?_, ?_, rfl, ?_⟩ <;> decide

/-- RetPopsOrUnderflows and CallPushesOrOverflows at 0, 1, 15 and 16. -/
theorem witness_stack_depths :
    State.reset.sp.val = 0 ∧ 0 < { State.reset with sp := 1 }.sp.val ∧ { State.reset with sp := 15 }.sp.val < 16 ∧
    { State.reset with sp := 16 }.sp.val = 16 := by decide

theorem witness_return_continues :
    State.reset.sp.val < 16 ∧ ∃ t u : State, exec (.call 0x300#12) State.reset = .next t ∧ u.sp = t.sp ∧
      ∀ k : Fin 16, k.val < t.sp.val → u.stack[k] = t.stack[k] :=
  ⟨by decide, _, _, rfl, rfl, fun _ _ => rfl⟩

/-- KeySkips: codes 0 and 15, which name keys, and 16 and 255, which name none. -/
theorem witness_key_codes :
    (regs [(4, 0#8)]).V[4].toNat = (0 : Fin 16).val ∧ (regs [(4, 15#8)]).V[4].toNat = (15 : Fin 16).val ∧
    (regs [(4, 16#8)]).V[4].toNat > 15 ∧ (regs [(4, 255#8)]).V[4].toNat > 15 := by decide

/-- KeyWaitPolls: key 15 the only one, keys 0 and 8, and none. -/
theorem witness_key_wait :
    (let s := { State.reset with keys := 0x8000#16 }
     s.keys[(15 : Fin 16)] = true ∧ ∀ j : Fin 16, j < 15 → s.keys[j] = false) ∧
    (let s := { State.reset with keys := 0x0101#16 }
     s.keys[(0 : Fin 16)] = true ∧ ∀ j : Fin 16, j < 0 → s.keys[j] = false) ∧
    ∀ k : Fin 16, State.reset.keys[k] = false := by decide

/-- DrawTogglesExactlyTheSprite and DrawRangeCheckAndZeroRows at their boundaries. -/
theorem witness_draw :
    ((0 : Fin 16).val = 0 ∨ (0xFFFF#16).toNat + (0 : Fin 16).val - 1 ≤ 0xFFF) ∧
    (0x0FF1#16).toNat + (15 : Fin 16).val - 1 ≤ 0xFFF ∧
    (1 : Fin 16).val ≥ 1 ∧ (0x1000#16).toNat + (1 : Fin 16).val - 1 > 0xFFF := by decide

theorem witness_draw_twice :
    let s := poke 0x300 [0xFF#8] { regs [(1, 2#8)] with I := 0x0300#16 }
    (1 : Reg) ≠ VF ∧ (2 : Reg) ≠ VF ∧ faultOf (.drw 1 2 1) s = none ∧
      ∃ t u : State, exec (.drw 1 2 1) s = .next t ∧ exec (.drw 1 2 1) t = .next u :=
  ⟨by decide, by decide, by decide, _, _, rfl, rfl⟩

/-- StoreDigits, StoreRegisters, LoadRegisters: each clause at its boundary. -/
theorem witness_store_ranges :
    Canonical { State.reset with I := 0x0FFD#16 } ∧ (0x0FFD#16).toNat + 2 ≤ 0xFFF ∧ (0x0FFE#16).toNat + 2 > 0xFFF ∧
    (0x0FF0#16).toNat + (15 : Reg).val ≤ 0xFFF ∧ (0x0FF1#16).toNat + (15 : Reg).val > 0xFFF ∧
    (0x1000#16).toNat + (0 : Reg).val > 0xFFF := by
  refine ⟨rfl, ?_⟩
  decide

theorem witness_store_then_load :
    let s := { regs [(0, 1#8), (15, 0x10#8)] with I := 0x0064#16 }
    Canonical s ∧ s.I.toNat + (15 : Reg).val ≤ 0xFFF ∧
      ∃ t u : State, exec (.stRegs 15) s = .next t ∧ u.memory = t.memory ∧ u.I = s.I :=
  ⟨rfl, by decide, _, { State.reset with memory := _, I := 0x0064#16 }, rfl, rfl, rfl⟩

/-- P6: the JP stored at 0x208 is fetched there. -/
theorem witness_stored_instruction :
    let s := { regs [(0, 0x12#8), (1, 0x0A#8)] with I := 0x0208#16 }
    0 + 1 ≤ (1 : Reg).val ∧ Canonical s ∧ s.I.toNat + (1 : Reg).val ≤ 0xFFF ∧
      ∃ t u : State, exec (.stRegs 1) s = .next t ∧ u.memory = t.memory ∧ u.pc.toNat = s.I.toNat + 0 :=
  ⟨by decide, rfl, by decide, _, { State.reset with memory := _, pc := 0x0208#16 }, rfl, rfl, rfl⟩

/-- ResetValues: the last font byte and the first byte after it. -/
theorem witness_font_boundary : 0x04F < fontTable.length ∧ fontTable.length ≤ 0x050 := by decide

/-- LoadProgramPlacesWholeImage: the largest image, and one byte more. -/
theorem witness_image_sizes :
    (List.replicate 0xE00 0x11#8).length = 0xE00 ∧ (List.replicate 0xE01 0x11#8).length = 0xE01 ∧
    Canonical State.reset :=
  ⟨List.length_replicate, List.length_replicate, rfl⟩

/-- LoadOnlyBeforeFirstStep: a running session, an image and an event in the boot window, an event in a running session.
The largest image is `witness_image_sizes`'s. -/
theorem witness_phases :
    (Session.mk State.reset .running).phase = .running ∧ Session.powerOn.phase = .boot ∧
    [0x60#8, 0x2A#8].length ≤ 0xE00 ∧ Event.loadProgram [0x60#8, 0x2A#8] ≠ .step ∧
    (∃ ss, (Event.loadProgram [0x60#8, 0x2A#8]).apply Session.powerOn = .next ss) ∧
    Event.timerTick ≠ .reset ∧ ∃ ss, Event.timerTick.apply (Session.mk State.reset .running) = .next ss :=
  ⟨rfl, rfl, by decide, by decide, ⟨_, rfl⟩, by decide, _, rfl⟩

theorem witness_step_keeps : Canonical State.reset ∧ ∃ t, step State.reset = .next t := ⟨rfl, _, rfl⟩

/-- EveryEventKeepsMemoryCanonical and DiagnosticsSteerNothing: each of the six events is answered, in the boot window. -/
theorem witness_events :
    Canonical Session.powerOn.machine ∧
    ∀ e ∈ [Event.reset, .loadProgram [0x60#8, 0x2A#8], .step, .timerTick, .keyUpdate 0x8001#16, .clearDirty],
      ∃ b, e.apply Session.powerOn = .next b := by
  refine ⟨rfl, fun e he => ?_⟩
  simp only [List.mem_cons, List.not_mem_nil, or_false] at he
  rcases he with rfl | rfl | rfl | rfl | rfl | rfl <;> exact ⟨_, rfl⟩

/-- The same in a running session that no run from power-on reaches. -/
theorem witness_event_unreached :
    let a : Session := { machine := poke 0xFFF [1#8] { State.reset with pc := 0xFFFE#16 }, phase := .running }
    Canonical a.machine ∧ ∃ b, Event.step.apply a = .next b :=
  ⟨rfl, _, rfl⟩

/-- A session reached by a load, a step, a tick and a reset. -/
theorem witness_reachable : ∃ ss, Reachable ss ∧ ss.phase = .boot ∧ ss.machine.diags = [0x0000#16] :=
  ⟨_, .event .reset _ _ (.event .timerTick _ _ (.event .step _ _ (.event (.loadProgram []) _ _ .powerOn rfl) rfl) rfl) rfl,
    rfl, rfl⟩

/-- Two canonical memories that agree at every address, one made by a write undone. -/
theorem witness_canonical_memories :
    Memory.wf ([] : Memory) = true ∧ Memory.wf (Memory.write (Memory.write [] 0x300 1#8) 0x300 0#8) = true ∧
    Memory.wf (Memory.write [] 0xFFF 1#8) = true := by decide

/-- DeadStackEntriesAreNeverRead: the only entry of an empty stack that can be pushed to, and the last entry. -/
theorem witness_dead_entries :
    State.reset.sp.val ≤ (0 : Fin 16).val ∧ { State.reset with sp := 15 }.sp.val ≤ (15 : Fin 16).val := by decide

end Sys2Proof.Tests
end

section
/-! SUPPORT. RET, CALL and LD_VX_K, one equation for each way they go (41_flow R91, R93; 60_exceptions R181, R182; 47
R157). -/

namespace Sys2Proof.Machine

/-- RET on an empty stack (R181). -/
theorem execRet_underflow {s : State} (h : s.sp.val = 0) :
    execRet s = .next { s with fault := some .stackUnderflow } := by
  unfold execRet
  rw [State.pop_none (s := s.advance) h]
  rfl

/-- RET with an entry to pop (R91). -/
theorem execRet_pop {s : State} (h : 0 < s.sp.val) :
    execRet s = .next { s with
      sp := ⟨s.sp.val - 1, by omega⟩
      pc := s.stack[s.sp.val - 1]'(by omega) } := by
  unfold execRet
  rw [State.pop_some (s := s.advance) h]
  rfl

/-- CALL on a full stack (R182). -/
theorem execCall_overflow {s : State} (nnn : BitVec 12) (h : s.sp.val = 16) :
    execCall nnn s = .next { s with fault := some .stackOverflow } := by
  unfold execCall
  rw [State.push_none (s := s.advance) _ h]
  rfl

/-- CALL with a free entry (R93). -/
theorem execCall_push {s : State} (nnn : BitVec 12) (h : s.sp.val < 16) :
    execCall nnn s = .next { s with
      stack := s.stack.set s.sp.val (s.pc + 2#16) h
      sp := ⟨s.sp.val + 1, by omega⟩
      pc := addrOf nnn } := by
  unfold execCall
  rw [State.push_some (s := s.advance) _ h]
  rfl

/-- LD_VX_K with a key pressed (R157). -/
theorem execLdVxK_some {s : State} {k : Nat} (x : Reg) (h : lowestKey s.keys = some k) :
    execLdVxK x s = .next (s.advance.setReg x (BitVec.ofNat 8 k)) := by
  unfold execLdVxK
  rw [h]

/-- LD_VX_K with no key pressed: the pre-increment is undone, and the state is as it was (R157). -/
theorem execLdVxK_none {s : State} (x : Reg) (h : lowestKey s.keys = none) : execLdVxK x s = .next s := by
  unfold execLdVxK
  rw [h]
  simp [State.setPc, State.advance]

end Sys2Proof.Machine
end

section
/-! SUPPORT. What each event can do to memory: write one run of bytes inside the 4096 (20_memory R43, R48), as LD_B and
ST_REGS do (47 R162, R163) and `LoadProgram` (70 R214), or put back the reset contents (R210). -/

namespace Sys2Proof.Machine

/-- `m'` is `m` with one run of bytes, possibly none, written inside the 4096 bytes of memory. -/
def Memory.WritesTo (m m' : Memory) : Prop :=
  ∃ (base : Nat) (bs : List Byte), base + bs.length ≤ 4096 ∧ m' = m.writeBytes base bs

/-- A memory left alone: the run of no bytes. -/
theorem Memory.WritesTo.of_eq {m m' : Memory} (h : m' = m) : m.WritesTo m' :=
  ⟨0, [], by decide, h⟩

theorem Memory.WritesTo.wf {m m' : Memory} (h : m.WritesTo m') (hm : m.wf = true) : m'.wf = true := by
  obtain ⟨base, bs, hb, rfl⟩ := h
  exact Memory.writeBytes_wf hm hb

/-- A range-checked instruction writes what its continuation `k` has written, and only where the access is in range;
elsewhere the fault discards the write (R184). -/
theorem State.inRange_writesTo {s k : State} {base n : Nat}
    (hk : n = 0 ∨ base + n ≤ 4096 → s.memory.WritesTo k.memory) :
    ∃ t, s.inRange base n k = .next t ∧ s.memory.WritesTo t.memory := by
  obtain ⟨heq, hin⟩ | ⟨heq, -, -⟩ := State.inRange_cases s k base n
  · exact ⟨k, heq, hk hin⟩
  · exact ⟨_, heq, .of_eq rfl⟩

/-- LD_B and ST_REGS write one run of bytes inside memory; no other instruction writes memory. -/
theorem exec_writesTo (i : Instr) (s : State) : ∃ t, exec i s = .next t ∧ s.memory.WritesTo t.memory := by
  cases i with
  | ret =>
    rcases Nat.eq_zero_or_pos s.sp.val with h | h
    · exact ⟨_, execRet_underflow h, .of_eq rfl⟩
    · exact ⟨_, execRet_pop h, .of_eq rfl⟩
  | call nnn =>
    rcases Nat.lt_or_ge s.sp.val 16 with h | h
    · exact ⟨_, execCall_push nnn h, .of_eq rfl⟩
    · exact ⟨_, execCall_overflow nnn (by omega), .of_eq rfl⟩
  | ldVxK x =>
    rcases h : lowestKey s.keys with _ | k
    · exact ⟨s, execLdVxK_none x h, .of_eq rfl⟩
    · exact ⟨_, execLdVxK_some x h, .of_eq rfl⟩
  | drw x y n => exact State.inRange_writesTo fun _ => .of_eq rfl
  | ldRegs x => exact State.inRange_writesTo fun _ => .of_eq (by simp)
  | ldB x => exact State.inRange_writesTo fun h => ⟨s.base, digits (s.reg x), by simpa using h, rfl⟩
  | stRegs x => exact State.inRange_writesTo fun h => ⟨s.base, s.regsTo x, by simpa using h, rfl⟩
  | _ => exact ⟨_, rfl, .of_eq (by simp)⟩

/-- `Exec` of any word: an unknown one leaves memory alone (R84). -/
theorem execWord_writesTo (oc : Word) (s : State) :
    ∃ t, execWord oc s = .next t ∧ s.memory.WritesTo t.memory := by
  unfold execWord
  split
  · exact exec_writesTo _ s
  · exact ⟨_, rfl, .of_eq rfl⟩

/-- Every step answers a next state and writes at most one run of bytes inside memory. -/
theorem step_writesTo (s : State) : ∃ t, step s = .next t ∧ s.memory.WritesTo t.memory := by
  obtain ⟨-, h⟩ | ⟨-, -, h⟩ | ⟨-, -, h⟩ := step_cases s
  · exact ⟨s, h, .of_eq rfl⟩
  · exact ⟨_, h, .of_eq rfl⟩
  · rw [h]
    exact execWord_writesTo _ s

/-- An image that is loaded fits: 0x200 + 0xE00 = 4096 (R214). -/
theorem loadProgram_writesTo {bytes : List Byte} {s t : State} (h : loadProgram bytes s = .next t) :
    s.memory.WritesTo t.memory := by
  unfold loadProgram at h
  split at h
  · cases h
  · cases h
    exact ⟨0x200, bytes, by omega, rfl⟩

/-- An outcome placed in a phase is a next session exactly when it was a next state. -/
theorem inPhase_eq_next {p : Phase} {r : Result} {b : Session} :
    inPhase p r = .next b ↔ ∃ t, r = .next t ∧ b = { machine := t, phase := p } := by
  cases r <;> simp [inPhase, eq_comm]

/-- LoadProgram is answered in the boot phase only (R214), with the state `loadProgram` gives. -/
theorem apply_loadProgram_eq_next {bytes : List Byte} {a b : Session}
    (h : (Event.loadProgram bytes).apply a = .next b) : loadProgram bytes a.machine = .next b.machine := by
  simp only [Event.apply] at h
  split at h
  · obtain ⟨t, ht, rfl⟩ := inPhase_eq_next.mp h
    exact ht
  · cases h

/-- The step event is answered with the state `step` gives. -/
theorem apply_step_eq_next {a b : Session} (h : Event.step.apply a = .next b) : step a.machine = .next b.machine := by
  obtain ⟨t, ht, rfl⟩ := inPhase_eq_next.mp h
  exact ht

/-- An event puts back the reset memory, which lists nothing, or writes at most one run of bytes inside memory. -/
theorem apply_memory {e : Event} {a b : Session} (h : e.apply a = .next b) :
    b.machine.memory = State.reset.memory ∨ a.machine.memory.WritesTo b.machine.memory := by
  cases e with
  | reset => cases h; exact .inl rfl
  | loadProgram bytes => exact .inr (loadProgram_writesTo (apply_loadProgram_eq_next h))
  | step =>
    obtain ⟨t, ht, hw⟩ := step_writesTo a.machine
    cases ht.symm.trans (apply_step_eq_next h)
    exact .inr hw
  | timerTick => cases h; exact .inr (.of_eq rfl)
  | keyUpdate k => cases h; exact .inr (.of_eq rfl)
  | clearDirty => cases h; exact .inr (.of_eq rfl)

end Sys2Proof.Machine
end

section
/-! SUPPORT. Memory stays in canonical form (log entry 5) under every event. -/

namespace Sys2Proof.Proofs

open Sys2Proof.Machine Sys2Proof.Safety

/-- Settles O60: an event resets memory to the empty list, or writes one run of bytes inside the 4096, which
`Memory.writeBytes` does in canonical form. -/
theorem everyEventKeepsMemoryCanonical : Obligations.EveryEventKeepsMemoryCanonical := by
  refine ⟨rfl, fun e a b ha hab => ?_⟩
  unfold Canonical at ha ⊢
  obtain hreset | hwrites := apply_memory hab
  · rw [hreset]
    rfl
  · exact hwrites.wf ha

end Sys2Proof.Proofs
end

section
/-! SUPPORT. A canonical memory is determined by its bytes (log entry 5), and what reset leaves (10_state R26). -/

namespace Sys2Proof.Machine

/-- The canonical form of a memory that lists something, clause by clause. -/
theorem Memory.wfFrom_cons_iff {lo k : Nat} {c : Byte} {m : Memory} :
    Memory.wfFrom lo ((k, c) :: m) = true ↔
      lo ≤ k ∧ k < 4096 ∧ c ≠ resetByte k ∧ m.wfFrom (k + 1) = true := by
  simp [Memory.wfFrom, and_assoc]

/-- The first listed address is the least one at which a canonical memory differs from what reset left. -/
theorem Memory.head_le_head {lo lo' k k' : Nat} {c c' : Byte} {m m' : Memory}
    (h : Memory.wfFrom lo ((k, c) :: m) = true) (h' : Memory.wfFrom lo' ((k', c') :: m') = true)
    (heq : ∀ a < 4096, Memory.read ((k, c) :: m) a = Memory.read ((k', c') :: m') a) : k' ≤ k := by
  obtain ⟨-, hk, hc, -⟩ := Memory.wfFrom_cons_iff.mp h
  obtain ⟨-, hk', hc', hm'⟩ := Memory.wfFrom_cons_iff.mp h'
  by_contra hlt
  have hbelow : Memory.read ((k', c') :: m') k = resetByte k :=
    Memory.read_below (lo := k') (Memory.wfFrom_cons_iff.mpr ⟨le_rfl, hk', hc', hm'⟩) (by omega)
  exact hc (by simpa [Memory.read] using (heq k hk).trans hbelow)

/-- Canonical memories that read alike below 4096 are the same list. -/
theorem Memory.eq_of_read_eq {lo : Nat} {m m' : Memory} (h : m.wfFrom lo = true) (h' : m'.wfFrom lo = true)
    (heq : ∀ a < 4096, m.read a = m'.read a) : m = m' := by
  induction m generalizing lo m' with
  | nil =>
    cases m' with
    | nil => rfl
    | cons e' m' =>
      obtain ⟨-, hk', hc', -⟩ := Memory.wfFrom_cons_iff.mp h'
      exact absurd (by simpa [Memory.read] using (heq _ hk').symm) hc'
  | cons e m ih =>
    cases m' with
    | nil =>
      obtain ⟨-, hk, hc, -⟩ := Memory.wfFrom_cons_iff.mp h
      exact absurd (by simpa [Memory.read] using heq _ hk) hc
    | cons e' m' =>
      obtain ⟨k, c⟩ := e
      obtain ⟨k', c'⟩ := e'
      obtain rfl : k = k' :=
        Nat.le_antisymm (Memory.head_le_head h' h fun a ha => (heq a ha).symm) (Memory.head_le_head h h' heq)
      obtain ⟨-, hk, -, hm⟩ := Memory.wfFrom_cons_iff.mp h
      obtain ⟨-, -, -, hm'⟩ := Memory.wfFrom_cons_iff.mp h'
      obtain rfl : c = c' := by simpa [Memory.read] using heq k hk
      have htail : ∀ a < 4096, Memory.read m a = Memory.read m' a := by
        intro a ha
        by_cases hak : a ≤ k
        · rw [Memory.read_below hm (by omega), Memory.read_below hm' (by omega)]
        · have hne : k ≠ a := by omega
          simpa [Memory.read, hne] using heq a ha
      rw [ih hm hm' htail]

theorem length_fontTable : fontTable.length = 80 := rfl

/-- Above the font table reset leaves 0 (R26). -/
theorem resetByte_above {a : Nat} (h : 0x050 ≤ a) : resetByte a = 0x00#8 :=
  List.getD_eq_default fontTable _ (by rw [length_fontTable]; omega)

/-- The reading helper gives 0 above 0xFFF, where a canonical memory lists nothing. -/
theorem Memory.read_above {lo : Nat} {m : Memory} (h : m.wfFrom lo = true) {a : Nat} (ha : 4096 ≤ a) :
    m.read a = 0x00#8 := by
  induction m generalizing lo with
  | nil => exact resetByte_above (by omega)
  | cons e m ih =>
    obtain ⟨-, hk, -, hm⟩ := Memory.wfFrom_cons_iff.mp h
    have hne : e.1 ≠ a := by omega
    simpa [Memory.read, hne] using ih hm

end Sys2Proof.Machine
end

section
/-! SUPPORT. The reset state, and the canonical form of memory (10_state R23, R26). -/

namespace Sys2Proof.Proofs

open Sys2Proof.Machine Sys2Proof.Safety

/-- Settles O54: a step writes at most one run of bytes inside memory, which `Memory.writeBytes` does in canonical
form. -/
theorem stepKeepsMemoryCanonical : Obligations.StepKeepsMemoryCanonical := by
  intro s t hs ht
  obtain ⟨u, hu, hwrites⟩ := step_writesTo s
  cases hu.symm.trans ht
  exact hwrites.wf hs

/-- Settles O53: the empty list is in canonical form. -/
theorem resetMemoryIsCanonical : Obligations.ResetMemoryIsCanonical := rfl

/-- Settles O48: the event looks at the two fields it keeps and at nothing else. -/
theorem resetErasesEverything : Obligations.ResetErasesEverything :=
  fun ss => ⟨resetEvent ss.machine, rfl, rfl, rfl⟩

/-- Settles O56: the least address where the two lists could differ is listed in one of them with a byte the other does
not read there. -/
theorem canonicalMemoryIsItsBytes : Obligations.CanonicalMemoryIsItsBytes :=
  fun _ _ h h' => ⟨Memory.eq_of_read_eq h h', fun _ => Memory.read_above h⟩

/-- Settles O47: the reset memory lists nothing, so each byte reads as `resetByte`: the font table, and 0 above it. -/
theorem resetValues : Obligations.ResetValues := by
  have hregs : ∀ r : Reg, State.reset.V[r] = 0x00#8 := by simp [State.reset]
  have hstack : ∀ k : Fin 16, State.reset.stack[k] = 0x0000#16 := by simp [State.reset]
  have hkeys : ∀ k : Fin 16, State.reset.keys[k] = false := by simp [State.reset]
  have hcells : ∀ c : Fin 2048, State.reset.cell c = false := by simp [State.cell, Display.cell, State.reset]
  have hfont : ∀ a (h : a < fontTable.length), State.reset.byteAt a = fontTable[a] :=
    fun a h => List.getD_eq_getElem fontTable _ h
  exact ⟨hregs, rfl, rfl, hstack, rfl, rfl, rfl, hkeys, hcells, rfl, rfl, length_fontTable, hfont,
    fun _ => resetByte_above⟩

end Sys2Proof.Proofs
end

section
/-! SUPPORT. What an instruction does where it faults and where it does not, told apart by the fault table
(60_exceptions R180 to R184). -/

namespace Sys2Proof.Machine

/-- The range check passes exactly where the access ends inside memory (20_memory R44). -/
theorem rangeFault_eq_none {base n : Nat} : rangeFault base n = none ↔ n = 0 ∨ base + n ≤ 4096 := by
  refine ⟨fun h => ?_, rangeFault_none⟩
  by_contra hout
  rw [rangeFault_some (by omega) (by omega)] at h
  cases h

theorem State.inRange_of_some {s k : State} {base n : Nat} {f : Fault} (h : rangeFault base n = some f) :
    s.inRange base n k = .next { s with fault := some f } := by
  unfold State.inRange
  rw [h]
  rfl

end Sys2Proof.Machine

namespace Sys2Proof.Safety

open Sys2Proof.Machine

variable {s : State}

theorem faultOf_ret_eq_none : faultOf .ret s = none ↔ 0 < s.sp.val := by
  simp [faultOf, Nat.pos_iff_ne_zero]

theorem faultOf_call_eq_none {nnn : BitVec 12} : faultOf (.call nnn) s = none ↔ s.sp.val < 16 := by
  have := s.sp.isLt
  simp only [faultOf, ite_eq_right_iff, reduceCtorEq, imp_false]
  omega

theorem faultOf_drw (x y : Reg) (n : Fin 16) : faultOf (.drw x y n) s = rangeFault s.I.toNat n.val := rfl

theorem faultOf_ldB (x : Reg) : faultOf (.ldB x) s = rangeFault s.I.toNat 3 := by
  simp [faultOf, rangeFault]

theorem faultOf_stRegs (x : Reg) : faultOf (.stRegs x) s = rangeFault s.I.toNat (x.val + 1) := by
  simp [faultOf, rangeFault, ← Nat.add_assoc]

theorem faultOf_ldRegs (x : Reg) : faultOf (.ldRegs x) s = rangeFault s.I.toNat (x.val + 1) :=
  faultOf_stRegs x

/-- A fault discards every write of the instruction and sets the latch (R184). -/
theorem exec_of_faultOf_some {i : Instr} {f : Fault} (h : faultOf i s = some f) :
    exec i s = .next { s with fault := some f } := by
  cases i with
  | ret =>
    obtain ⟨hsp, rfl⟩ : s.sp.val = 0 ∧ Fault.stackUnderflow = f := by simpa [faultOf] using h
    exact execRet_underflow hsp
  | call nnn =>
    obtain ⟨hsp, rfl⟩ : s.sp.val = 16 ∧ Fault.stackOverflow = f := by simpa [faultOf] using h
    exact execCall_overflow nnn hsp
  | drw x y n => exact State.inRange_of_some h
  | ldB x => exact State.inRange_of_some (faultOf_ldB x ▸ h)
  | stRegs x => exact State.inRange_of_some (faultOf_stRegs x ▸ h)
  | ldRegs x => exact State.inRange_of_some (faultOf_ldRegs x ▸ h)
  | _ => cases h

/-- LD_B in range (R162). -/
theorem exec_ldB {x : Reg} (h : faultOf (.ldB x) s = none) :
    exec (.ldB x) s = .next (s.advance.storeBytes s.I.toNat (digits s.V[x])) :=
  State.inRange_ok (rangeFault_eq_none.mp (faultOf_ldB x ▸ h))

/-- ST_REGS in range (R163). -/
theorem exec_stRegs {x : Reg} (h : faultOf (.stRegs x) s = none) :
    exec (.stRegs x) s = .next
      ((s.advance.storeBytes s.I.toNat (s.regsTo x)).setI (s.I + BitVec.ofNat 16 (x.val + 1))) :=
  State.inRange_ok (rangeFault_eq_none.mp (faultOf_stRegs x ▸ h))

/-- LD_REGS in range (R164). -/
theorem exec_ldRegs {x : Reg} (h : faultOf (.ldRegs x) s = none) :
    exec (.ldRegs x) s = .next
      ((s.advance.loadRegs s.I.toNat (x.val + 1)).setI (s.I + BitVec.ofNat 16 (x.val + 1))) :=
  State.inRange_ok (rangeFault_eq_none.mp (faultOf_ldRegs x ▸ h))

end Sys2Proof.Safety
end

section
/-! SUPPORT. The sprite draw, bit by bit: which cell a sprite bit lands at, and what the bits drawn so far have done to
the display and to the collision flag (45_draw_D R135 to R140). -/

namespace Sys2Proof.Safety

open Sys2Proof.Machine

variable {vx vy row col : Nat}

/-- One wrap brings a coordinate inside the grid exactly when it lies below twice the size (R136). -/
theorem wrap1_lt_iff {c size : Nat} : wrap1 c size < size ↔ c < 2 * size := by
  unfold wrap1
  split <;> omega

/-- One wrap, where it is enough, is the remainder. -/
theorem wrap1_eq_mod {c size : Nat} (h : wrap1 c size < size) : wrap1 c size = c % size := by
  unfold wrap1 at h ⊢
  split at h
  · rw [if_pos ‹_›, Nat.mod_eq_sub_mod ‹_›, Nat.mod_eq_of_lt h]
  · rw [if_neg ‹_›, Nat.mod_eq_of_lt h]

/-- The grid position of a sprite bit is the one cell it lands at (R136, R137). -/
theorem landsAt_of_spritePos_some {py : Fin 32} {px : Fin 64} (h : spritePos vx vy row col = some (py, px)) (c : Nat) :
    landsAt vx vy row col c = decide (c = py.val * 64 + px.val) := by
  obtain ⟨⟨hx, hy⟩, hpos⟩ := Option.dite_none_right_eq_some.mp h
  obtain ⟨rfl, rfl⟩ := Prod.mk.inj (Option.some.inj hpos)
  have hx' := wrap1_lt_iff.mp (Nat.lt_succ_of_le hx)
  have hy' := wrap1_lt_iff.mp (Nat.lt_succ_of_le hy)
  have hcol : vx + col ≤ 127 := by omega
  have hrow : vy + row ≤ 63 := by omega
  simp [landsAt, hcol, hrow, wrap1_eq_mod (Nat.lt_succ_of_le hx), wrap1_eq_mod (Nat.lt_succ_of_le hy)]

/-- A sprite bit still outside the grid after the wrap lands nowhere (R137). -/
theorem landsAt_of_spritePos_none (h : spritePos vx vy row col = none) (c : Nat) :
    landsAt vx vy row col c = false := by
  have hout := dite_eq_right_iff.mp h
  simp only [reduceCtorEq, imp_false] at hout
  by_contra hland
  simp only [landsAt, Bool.not_eq_false, Bool.and_eq_true, decide_eq_true_eq] at hland
  obtain ⟨⟨hcol, hrow⟩, -⟩ := hland
  exact hout ⟨Nat.le_of_lt_succ (wrap1_lt_iff.mpr (by omega)), Nat.le_of_lt_succ (wrap1_lt_iff.mpr (by omega))⟩

/-- Two bits of one sprite never land at one cell: it has at most 16 rows and 8 columns. -/
theorem landsAt_inj {row' col' c : Nat} (hrow : row < 16) (hrow' : row' < 16) (hcol : col < 8) (hcol' : col' < 8)
    (h : landsAt vx vy row col c = true) (h' : landsAt vx vy row' col' c = true) : row = row' ∧ col = col' := by
  simp only [landsAt, Bool.and_eq_true, decide_eq_true_eq] at h h'
  omega

/-- The display `d` with the cells of `hit` toggled, and whether one of them was lit (R138). -/
def Toggled (d : Display) (hit : Nat → Bool) (acc : Display × Bool) : Prop :=
  (∀ c : Fin 2048, Display.cell acc.1 c = xor (Display.cell d c) (hit c.val)) ∧
  (acc.2 = true ↔ ∃ c : Fin 2048, hit c.val = true ∧ Display.cell d c = true)

/-- Before the first bit. -/
theorem Toggled.none (d : Display) : Toggled d (fun _ => false) (d, false) := by
  simp [Toggled]

/-- The number of the cell in row `py` and column `px` (10_state R20). -/
def cellAt (py : Fin 32) (px : Fin 64) : Fin 2048 := ⟨py.val * 64 + px.val, by omega⟩

theorem cell_cellAt (d : Display) (py : Fin 32) (px : Fin 64) :
    Display.cell d (cellAt py px) = d[py].getLsbD px.val := by
  have hrow : (cellAt py px).val / 64 = py.val := by simp only [cellAt]; omega
  have hcol : (cellAt py px).val % 64 = px.val := by simp only [cellAt]; omega
  simp [Display.cell, hrow, hcol]

/-- Toggling one cell more, one not hit before. -/
theorem Toggled.toggle {d : Display} {hit : Nat → Bool} {acc : Display × Bool} (h : Toggled d hit acc)
    (py : Fin 32) (px : Fin 64) (hfresh : hit (py.val * 64 + px.val) = false) :
    Toggled d (fun c => hit c || decide (c = py.val * 64 + px.val))
      (Display.toggle acc.1 py px, acc.2 || acc.1[py].getLsbD px.val) := by
  obtain ⟨hcells, hflag⟩ := h
  have hlit : acc.1[py].getLsbD px.val = Display.cell d (cellAt py px) := by
    have hnotHit : hit (cellAt py px).val = false := hfresh
    rw [← cell_cellAt, hcells, hnotHit, Bool.xor_false]
  constructor
  · intro c
    rw [Display.cell_toggle, hcells c]
    by_cases hc : c.val = py.val * 64 + px.val
    · simp [hc, hfresh]
    · simp [hc]
  · rw [Bool.or_eq_true, hflag, hlit]
    constructor
    · rintro (⟨c, hc, hd⟩ | hp)
      · exact ⟨c, by simp [hc], hd⟩
      · exact ⟨cellAt py px, by simp [cellAt], hp⟩
    · rintro ⟨c, hc, hd⟩
      rcases (Bool.or_eq_true _ _).mp hc with hc | hc
      · exact .inl ⟨c, hc, hd⟩
      · obtain rfl : c = cellAt py px := Fin.ext (of_decide_eq_true hc)
        exact .inr hd

/-- The cell at which a sprite bit is drawn, if the bit is set. -/
def bitHits (vx vy : Nat) (b : Byte) (row col c : Nat) : Bool := b.getLsbD (7 - col) && landsAt vx vy row col c

/-- The cells at which the bits of one sprite row are drawn. -/
def rowHits (vx vy : Nat) (b : Byte) (row : Nat) (cols : List Nat) (c : Nat) : Bool :=
  cols.any fun col => bitHits vx vy b row col c

/-- The cells at which the sprite rows `bs` are drawn, the first being row number `row`. -/
def rowsHit (vx vy : Nat) : Nat → List Byte → Nat → Bool
  | _, [], _ => false
  | row, b :: bs, c => rowHits vx vy b row (List.range 8) c || rowsHit vx vy (row + 1) bs c

variable {d : Display} {hit : Nat → Bool} {acc : Display × Bool}

/-- One sprite bit, where it lands at no cell hit before (R135, R138). -/
theorem Toggled.drawBit (h : Toggled d hit acc) (b : Byte)
    (hfresh : ∀ c, landsAt vx vy row col c = true → hit c = false) :
    Toggled d (fun c => hit c || bitHits vx vy b row col c) (drawBit vx vy b row acc col) := by
  unfold Machine.drawBit bitHits
  split
  · rename_i hb
    simp only [hb, Bool.true_and]
    split
    · rename_i py px hpos
      have hlands := landsAt_of_spritePos_some hpos
      simp only [hlands] at hfresh ⊢
      exact h.toggle py px (hfresh _ (by simp))
    · rename_i hpos
      simpa [landsAt_of_spritePos_none hpos] using h
  · rename_i hb
    simpa [hb] using h

/-- A run of bits of one sprite row. No bit lands at the cell of another (`landsAt_inj`), so each toggles a cell
still as it was before the draw. -/
theorem Toggled.drawBits (h : Toggled d hit acc) (b : Byte) (hrow : row < 16) {cols : List Nat}
    (hcols : ∀ col ∈ cols, col < 8) (hnodup : cols.Nodup)
    (hfresh : ∀ col ∈ cols, ∀ c, landsAt vx vy row col c = true → hit c = false) :
    Toggled d (fun c => hit c || rowHits vx vy b row cols c) (cols.foldl (Machine.drawBit vx vy b row) acc) := by
  induction cols generalizing hit acc with
  | nil => simpa [rowHits] using h
  | cons col cols ih =>
    obtain ⟨hcol, hcols⟩ := List.forall_mem_cons.mp hcols
    obtain ⟨hnotin, hnodup⟩ := List.nodup_cons.mp hnodup
    obtain ⟨hhead, htail⟩ := List.forall_mem_cons.mp hfresh
    have hnext := ih (h.drawBit b hhead) hcols hnodup fun col' hmem c hc => by
      have hother : landsAt vx vy row col c = false := by
        by_contra hland
        obtain ⟨-, rfl⟩ := landsAt_inj hrow hrow hcol (hcols col' hmem) (by simpa using hland) hc
        exact hnotin hmem
      simp [htail col' hmem c hc, bitHits, hother]
    simpa only [rowHits, List.any_cons, Bool.or_assoc, List.foldl_cons] using hnext

/-- A run of sprite rows, none of whose bits lands at a cell hit before. -/
theorem Toggled.drawRows (h : Toggled d hit acc) {bs : List Byte} (hlen : row + bs.length ≤ 16)
    (hfresh : ∀ r c : Nat, row ≤ r → r < 16 → ∀ col < 8, landsAt vx vy r col c = true → hit c = false) :
    Toggled d (fun c => hit c || rowsHit vx vy row bs c) (drawRows vx vy row bs acc) := by
  induction bs generalizing hit acc row with
  | nil => simpa only [rowsHit, Bool.or_false, Machine.drawRows] using h
  | cons b bs ih =>
    rw [List.length_cons] at hlen
    have hrow : row < 16 := by omega
    have hdrawn := h.drawBits (vx := vx) (vy := vy) b hrow (cols := List.range 8) (by simp) List.nodup_range
      fun col hmem c => hfresh row c le_rfl hrow col (by simpa using hmem)
    have hnext := ih (row := row + 1) hdrawn (by omega) fun r c hr hr16 col hcol hc => by
      have hother : rowHits vx vy b row (List.range 8) c = false := by
        simp only [rowHits, bitHits, List.any_eq_false, List.mem_range, Bool.and_eq_true, not_and]
        intro col' hcol' _ hland
        have := landsAt_inj hrow hr16 hcol' hcol hland hc
        omega
      simp [hfresh r c (by omega) hr16 col hcol hc, hother]
    simpa only [rowsHit, Bool.or_assoc, Machine.drawRows, drawRow] using hnext

/-- A cell is hit by the rows of a sprite when some row's bits hit it. -/
theorem rowsHit_eq_true {bs : List Byte} {c : Nat} :
    rowsHit vx vy row bs c = true ↔
      ∃ k, ∃ h : k < bs.length, ∃ col < 8, bitHits vx vy bs[k] (row + k) col c = true := by
  induction bs generalizing row with
  | nil => simp [rowsHit]
  | cons b bs ih =>
    simp only [rowsHit, rowHits, Bool.or_eq_true, List.any_eq_true, List.mem_range, ih]
    constructor
    · rintro (h | ⟨k, hk, h⟩)
      · exact ⟨0, by simp, h⟩
      · exact ⟨k + 1, by simpa using hk, by simpa [Nat.add_assoc, Nat.add_comm 1] using h⟩
    · rintro ⟨k, hk, h⟩
      cases k with
      | zero => exact .inl h
      | succ k => exact .inr ⟨k, by simpa using hk, by simpa [Nat.add_assoc, Nat.add_comm 1] using h⟩

/-- The cells DRW draws at are those hit by the bytes from `I` up (R135, R140). -/
theorem rowsHit_sprite (s : State) (x y : Reg) (n : Fin 16) (c : Nat) :
    rowsHit s.V[x].toNat s.V[y].toNat 0 (s.memory.readBytes s.I.toNat n.val) c = drawnAt s x y n c := by
  rw [Bool.eq_iff_iff, rowsHit_eq_true]
  simp only [bitHits, Memory.getElem_readBytes, Memory.length_readBytes, drawnAt, spriteBit, State.byteAt_eq,
    List.any_eq_true, List.mem_range, Bool.and_eq_true, decide_eq_true_eq, Nat.zero_add]
  constructor
  · rintro ⟨k, hk, col, hcol, hbit, hland⟩
    exact ⟨k, by omega, col, hcol, ⟨hk, hbit⟩, hland⟩
  · rintro ⟨k, -, col, hcol, ⟨hk, hbit⟩, hland⟩
    exact ⟨k, hk, col, hcol, hbit, hland⟩

/-- The sprite DRW draws, and the collision flag it ends with (R135, R138). -/
def drawnBy (x y : Reg) (n : Fin 16) (s : State) : Display × Bool :=
  Machine.drawRows s.V[x].toNat s.V[y].toNat 0 (s.memory.readBytes s.I.toNat n.val) (s.display, false)

/-- The whole draw: at most 16 rows, from a display nothing has been drawn at yet. -/
theorem toggled_drawnBy (x y : Reg) (n : Fin 16) (s : State) :
    Toggled s.display (drawnAt s x y n) (drawnBy x y n s) := by
  have h := (Toggled.none s.display).drawRows (vx := s.V[x].toNat) (vy := s.V[y].toNat) (row := 0)
    (bs := s.memory.readBytes s.I.toNat n.val) (by simp) fun _ _ _ _ _ _ _ => rfl
  simp only [Bool.false_or, rowsHit_sprite] at h
  exact h

/-- DRW in range (R141, R143). -/
theorem exec_drw {s : State} {x y : Reg} {n : Fin 16} (h : faultOf (.drw x y n) s = none) :
    exec (.drw x y n) s = .next
      { s.advance.setReg VF (flagBit (drawnBy x y n s).2) with
        display := (drawnBy x y n s).1, isDrawing := true } :=
  State.inRange_ok (rangeFault_eq_none.mp h)

/-- DRW XORs exactly the cells where a set sprite bit lands (R137, R140). -/
theorem cell_drawnBy (x y : Reg) (n : Fin 16) (s : State) (c : Fin 2048) :
    Display.cell (drawnBy x y n s).1 c = xor (s.cell c) (drawnAt s x y n c.val) :=
  (toggled_drawnBy x y n s).1 c

/-- DRW's flag is the collision (R138). -/
theorem collision_drawnBy (x y : Reg) (n : Fin 16) (s : State) : (drawnBy x y n s).2 = collides s x y n := by
  rw [Bool.eq_iff_iff, collides_iff]
  exact (toggled_drawnBy x y n s).2

end Sys2Proof.Safety
end
section
/-! SUPPORT. The arithmetic of the meanings as the rules write it, on numbers (30_encoding R63, 43_alu_8 R121). -/

namespace Sys2Proof.Machine

theorem addrOf_eq_ofNat (nnn : BitVec 12) : addrOf nnn = BitVec.ofNat 16 nnn.toNat := by
  apply BitVec.eq_of_toNat_eq
  simp [addrOf]

theorem glyphAddr_eq_ofNat (a : Byte) : glyphAddr a = BitVec.ofNat 16 (a.toNat * 5) := by
  apply BitVec.eq_of_toNat_eq
  simp [glyphAddr]

theorem word_add_byte_eq_ofNat (w : Word) (a : Byte) :
    w + a.setWidth 16 = BitVec.ofNat 16 ((w.toNat + a.toNat) % 65536) := by
  apply BitVec.eq_of_toNat_eq
  simp

theorem addrOf_add_byte_eq_ofNat (nnn : BitVec 12) (a : Byte) :
    addrOf nnn + a.setWidth 16 = BitVec.ofNat 16 (nnn.toNat + a.toNat) := by
  apply BitVec.eq_of_toNat_eq
  simp [addrOf]

theorem add_eq_ofNat (a b : Byte) : a + b = BitVec.ofNat 8 ((a.toNat + b.toNat) % 256) := by
  apply BitVec.eq_of_toNat_eq
  simp

theorem sub_eq_ofNat (a b : Byte) : a - b = BitVec.ofNat 8 ((a.toNat + 256 - b.toNat) % 256) := by
  apply BitVec.eq_of_toNat_eq
  simp only [BitVec.toNat_sub, BitVec.toNat_ofNat]
  omega

theorem ushiftRight_one_eq_ofNat (a : Byte) : a >>> 1 = BitVec.ofNat 8 (a.toNat / 2) := by
  apply BitVec.eq_of_toNat_eq
  simp only [BitVec.toNat_ushiftRight, BitVec.toNat_ofNat, Nat.shiftRight_one]
  omega

theorem shiftLeft_one_eq_ofNat (a : Byte) : a <<< 1 = BitVec.ofNat 8 (a.toNat * 2 % 256) := by
  apply BitVec.eq_of_toNat_eq
  simp [Nat.shiftLeft_eq]

theorem shrFlag_eq_ofNat (a : Byte) : shrFlag a = BitVec.ofNat 8 (a.toNat % 2) := by
  apply BitVec.eq_of_toNat_eq
  simp only [shrFlag, BitVec.toNat_and, BitVec.toNat_ofNat, Nat.reducePow, Nat.reduceMod, Nat.and_one_is_mod]
  omega

theorem shlFlag_eq_ofNat (a : Byte) : shlFlag a = BitVec.ofNat 8 (a.toNat / 16 * 16) := by
  revert a
  decide

end Sys2Proof.Machine
end

section
/-! SUPPORT. What an instruction leaves unchanged (10_state R16 to R21): each field, but for the rows of the opcode map
that are there to write it. -/

namespace Sys2Proof.Safety

open Sys2Proof.Machine

/-- The fields that `t`, after instruction `i`, has from `s`, each with the rows that may write it. -/
structure Frame (i : Instr) (s t : State) : Prop where
  memory : i.mnemonic ∉ [.LD_B, .ST_REGS] → t.memory = s.memory
  index : i.mnemonic ∉ [.LD_I, .ADD_I, .LD_F, .ST_REGS, .LD_REGS] → t.I = s.I
  stack : i.mnemonic ≠ .CALL → t.stack = s.stack
  sp : i.mnemonic ∉ [.CALL, .RET] → t.sp = s.sp
  delayTimer : i.mnemonic ≠ .LD_DT_VX → t.delayTimer = s.delayTimer
  soundTimer : i.mnemonic ≠ .LD_ST_VX → t.soundTimer = s.soundTimer
  keys : t.keys = s.keys
  display : i.mnemonic ∉ [.CLS, .DRW] → t.display = s.display
  isDrawing : i.mnemonic ≠ .DRW → t.isDrawing = s.isDrawing
  draws : i.mnemonic ≠ .RND → t.draws = s.draws
  diags : t.diags = s.diags

/-- A fault writes the latch only (60_exceptions R184). -/
theorem Frame.faulted (i : Instr) (s : State) (f : Option Fault) : Frame i s { s with fault := f } := by
  constructor <;> intros <;> rfl

/-- Every instruction, whether it completes or faults, keeps to its frame. -/
theorem exec_frame (i : Instr) (s : State) : ∃ t, exec i s = .next t ∧ Frame i s t := by
  rcases hf : faultOf i s with _ | f
  · cases i with
    | ret => exact ⟨_, execRet_pop (faultOf_ret_eq_none.mp hf), by constructor <;> simp [Instr.mnemonic]⟩
    | call nnn => exact ⟨_, execCall_push nnn (faultOf_call_eq_none.mp hf), by constructor <;> simp [Instr.mnemonic]⟩
    | drw x y n => exact ⟨_, exec_drw hf, by constructor <;> simp [Instr.mnemonic]⟩
    | ldB x => exact ⟨_, exec_ldB hf, by constructor <;> simp [Instr.mnemonic]⟩
    | stRegs x => exact ⟨_, exec_stRegs hf, by constructor <;> simp [Instr.mnemonic]⟩
    | ldRegs x => exact ⟨_, exec_ldRegs hf, by constructor <;> simp [Instr.mnemonic]⟩
    | ldVxK x =>
      rcases hk : lowestKey s.keys with _ | k
      · exact ⟨s, execLdVxK_none x hk, .faulted _ s s.fault⟩
      · exact ⟨_, execLdVxK_some x hk, by constructor <;> simp⟩
    | _ => exact ⟨_, rfl, by constructor <;> simp [Instr.mnemonic]⟩
  · exact ⟨_, exec_of_faultOf_some hf, .faulted i s (some f)⟩

end Sys2Proof.Safety
end

section
/-! SUPPORT. Keys and registers as the tables of the columns read them (46_keys_E R152, 47 R157, 10_state R12). -/

namespace Sys2Proof.Machine

/-- Where a skip leads that is taken when a condition fails (R13). -/
theorem State.skip_pc_not (s : State) (c : Bool) :
    (s.advance.skipIf (!c)).pc = if c then s.pc + 2#16 else s.pc + 4#16 := by
  rw [State.skip_pc]
  cases c <;> rfl

theorem State.skip_pc_decide (s : State) (p : Prop) [Decidable p] :
    (s.advance.skipIf (decide p)).pc = if p then s.pc + 4#16 else s.pc + 2#16 := by
  simp only [State.skip_pc, decide_eq_true_eq]

theorem State.skip_pc_decide_not (s : State) (p : Prop) [Decidable p] :
    (s.advance.skipIf (decide (¬ p))).pc = if p then s.pc + 2#16 else s.pc + 4#16 := by
  simp only [decide_not, State.skip_pc_not, decide_eq_true_eq]

end Sys2Proof.Machine

namespace Sys2Proof.Safety

open Sys2Proof.Machine

theorem pressed_eq_keyDown (s : State) (k : Byte) : pressed s.keys k = keyDown s k := by
  by_cases h : k.toNat ≤ 15 <;> simp [pressed, keyDown, h]

/-- The key scan finds the first of the pressed keys (R157). -/
theorem head?_pressedKeys (s : State) : (pressedKeys s).head? = lowestKey s.keys :=
  List.head?_filter

end Sys2Proof.Safety
end

section
/-! SUPPORT. The state column by column after every instruction (10_state R11 to R21). -/

namespace Sys2Proof.Proofs

open Sys2Proof.Machine Sys2Proof.Safety

/-- Settles O15: the table of R15 instruction by instruction; a fault and an unknown word by their own rules (R184,
R84). -/
theorem programCounterAfterEveryInstruction : Obligations.ProgramCounterAfterEveryInstruction := by
  refine ⟨fun i s h => ?_, fun i s h => ?_, fun oc g s h => ?_⟩
  · cases i with
    | ret =>
      have hsp := faultOf_ret_eq_none.mp h
      have hin : s.sp.val - 1 < s.stack.toList.length := by simp; omega
      exact ⟨_, execRet_pop hsp, (List.getD_eq_getElem _ _ hin).symm⟩
    | call nnn => exact ⟨_, execCall_push nnn (faultOf_call_eq_none.mp h), addrOf_eq_ofNat nnn⟩
    | jp nnn => exact ⟨_, rfl, addrOf_eq_ofNat nnn⟩
    | jpV0 nnn => exact ⟨_, rfl, addrOf_add_byte_eq_ofNat nnn s.V[0]⟩
    | seNn x nn | seVy x y => exact ⟨_, rfl, by apply State.skip_pc_decide⟩
    | sneNn x nn | sneVy x y => exact ⟨_, rfl, by apply State.skip_pc_decide_not⟩
    | skp x => exact ⟨_, rfl, by rw [State.skip_pc, pressed_eq_keyDown]; rfl⟩
    | sknp x => exact ⟨_, rfl, by rw [State.skip_pc_not, pressed_eq_keyDown]; rfl⟩
    | drw x y n => exact ⟨_, exec_drw h, rfl⟩
    | ldB x => exact ⟨_, exec_ldB h, rfl⟩
    | stRegs x => exact ⟨_, exec_stRegs h, rfl⟩
    | ldRegs x => exact ⟨_, exec_ldRegs h, State.loadRegs_pc ..⟩
    | ldVxK x =>
      rcases hk : lowestKey s.keys with _ | k
      · exact ⟨s, execLdVxK_none x hk, (if_pos (lowestKey_none.mp hk)).symm⟩
      · have hkeys : s.keys ≠ 0#16 := fun h0 => by simp [lowestKey_none.mpr h0] at hk
        exact ⟨_, execLdVxK_some x hk, (if_neg hkeys).symm⟩
    | _ => exact ⟨_, rfl, by rfl⟩
  · obtain ⟨f, hf⟩ := Option.ne_none_iff_exists'.mp h
    exact ⟨_, exec_of_faultOf_some hf, rfl⟩
  · have hunknown : execWord oc s = execUnknown oc s := by simp only [execWord, h]
    exact ⟨_, hunknown, rfl⟩

/-- Settles O16: by how many registers an instruction writes (none, VF, its destination, VF and its destination, V0 to
VX), the values by the arithmetic of R121; DRW's flag is the collision. -/
theorem registersAfterEveryInstruction : Obligations.RegistersAfterEveryInstruction := by
  intro i s h
  cases i with
  | ret => exact ⟨_, execRet_pop (faultOf_ret_eq_none.mp h), fun r => by simp [regAfter, resultOf, flagOf]⟩
  | call nnn => exact ⟨_, execCall_push nnn (faultOf_call_eq_none.mp h), fun r => by simp [regAfter, resultOf, flagOf]⟩
  | drw x y n =>
    refine ⟨_, exec_drw h, fun r => ?_⟩
    refine (State.getElem_setReg ..).trans ?_
    simp [regAfter, resultOf, flagOf, collision_drawnBy, flagBit]
  | addI x =>
    refine ⟨_, rfl, fun r => ?_⟩
    refine (State.getElem_setReg ..).trans ?_
    simp [regAfter, resultOf, flagOf, rangeFlag, flagBit]
  | ldB x => exact ⟨_, exec_ldB h, fun r => by simp [regAfter, resultOf, flagOf]⟩
  | stRegs x => exact ⟨_, exec_stRegs h, fun r => by simp [regAfter, resultOf, flagOf]⟩
  | ldRegs x =>
    refine ⟨_, exec_ldRegs h, fun r => ?_⟩
    refine (State.getElem_loadRegs ..).trans ?_
    simp [regAfter]
  | ldVxK x =>
    rcases hk : lowestKey s.keys with _ | k
    · exact ⟨s, execLdVxK_none x hk, by simp [regAfter, resultOf, flagOf, head?_pressedKeys, hk]⟩
    · refine ⟨_, execLdVxK_some x hk, fun r => ?_⟩
      refine (State.getElem_setReg ..).trans ?_
      simp [regAfter, resultOf, flagOf, head?_pressedKeys, hk]
  | ldNn x nn | addNn x nn | ldVy x y | orVy x y | andVy x y | xorVy x y | rnd x nn | ldVxDt x =>
    refine ⟨_, rfl, fun r => ?_⟩
    refine (State.getElem_setReg ..).trans ?_
    simp [regAfter, resultOf, flagOf, add_eq_ofNat]
  | addVy x y | sub x y | shr x y | subn x y | shl x y =>
    refine ⟨_, rfl, fun r => ?_⟩
    refine (State.getElem_setFlagThenReg ..).trans ?_
    simp [regAfter, resultOf, flagOf, add_eq_ofNat, sub_eq_ofNat, shrFlag_eq_ofNat, shlFlag_eq_ofNat,
      ushiftRight_one_eq_ofNat, shiftLeft_one_eq_ofNat, carryFlag, greaterFlag, flagBit]
  | _ => exact ⟨_, rfl, fun r => by simp [regAfter, resultOf, flagOf]⟩

/-- Settles O17: the five instructions that write `I`; the frame says that no other does. -/
theorem indexRegisterAfterEveryInstruction : Obligations.IndexRegisterAfterEveryInstruction := by
  intro i s h
  cases i with
  | stRegs x => exact ⟨_, exec_stRegs h, by simp [indexAfter, BitVec.ofNat_add, add_assoc]⟩
  | ldRegs x => exact ⟨_, exec_ldRegs h, by simp [indexAfter, BitVec.ofNat_add, add_assoc]⟩
  | ldI nnn => exact ⟨_, rfl, addrOf_eq_ofNat nnn⟩
  | ldF x => exact ⟨_, rfl, glyphAddr_eq_ofNat _⟩
  | addI x => exact ⟨_, rfl, word_add_byte_eq_ofNat s.I s.V[x]⟩
  | _ =>
    obtain ⟨t, ht, hframe⟩ := exec_frame _ s
    exact ⟨t, ht, hframe.index (by simp [Instr.mnemonic])⟩

/-- Settles O21: the three instructions that write one of these fields; the frame says that no other does. -/
theorem timersKeysInputsAfterEveryInstruction : Obligations.TimersKeysInputsAfterEveryInstruction := by
  intro i s h
  cases i with
  | ldDtVx x | ldStVx x | rnd x nn => exact ⟨_, rfl, rfl, rfl, rfl, rfl, rfl⟩
  | _ =>
    obtain ⟨t, ht, hframe⟩ := exec_frame _ s
    exact ⟨t, ht, hframe.delayTimer nofun, hframe.soundTimer nofun, hframe.keys, hframe.draws nofun, hframe.diags⟩

/-- Settles O18: RET and CALL; the frame says that no other instruction writes depth or entries. -/
theorem stackAfterEveryInstruction : Obligations.StackAfterEveryInstruction := by
  intro i s h
  cases i with
  | ret => exact ⟨_, execRet_pop (faultOf_ret_eq_none.mp h), rfl, fun _ => rfl⟩
  | call nnn =>
    refine ⟨_, execCall_push nnn (faultOf_call_eq_none.mp h), rfl, fun k => ?_⟩
    simp [stackAfter, Vector.getElem_set, eq_comm]
  | _ =>
    obtain ⟨t, ht, hframe⟩ := exec_frame _ s
    exact ⟨t, ht, by rw [hframe.sp (by simp [Instr.mnemonic])]; rfl, fun k => by rw [hframe.stack nofun]; rfl⟩

/-- Settles O20: CLS, and DRW by its cell rule; the frame says that no other instruction writes the display. -/
theorem displayAfterEveryInstruction : Obligations.DisplayAfterEveryInstruction := by
  intro i s h
  cases i with
  | cls => exact ⟨_, rfl, by simp [State.cell, Display.cell, cellAfter], rfl⟩
  | drw x y n => exact ⟨_, exec_drw h, cell_drawnBy x y n s, rfl⟩
  | _ =>
    obtain ⟨t, ht, hframe⟩ := exec_frame _ s
    exact ⟨t, ht, fun c => by rw [State.cell, hframe.display (by simp [Instr.mnemonic])]; rfl, hframe.isDrawing nofun⟩

/-- Settles O19: LD_B and ST_REGS store one run of bytes each; the frame says that no other instruction stores. -/
theorem memoryAfterEveryInstruction : Obligations.MemoryAfterEveryInstruction := by
  intro i s hs h
  cases i with
  | ldB x =>
    have hin := (rangeFault_eq_none.mp (faultOf_ldB x ▸ h)).resolve_left (by omega)
    refine ⟨_, exec_ldB h, fun a => ?_⟩
    refine (State.byteAt_storeBytes (s := s.advance) hs hin a).trans ?_
    rw [length_digits, byteAfter]
    by_cases ha : s.I.toNat ≤ a ∧ a < s.I.toNat + 3
    · obtain rfl | rfl | rfl : a = s.I.toNat ∨ a = s.I.toNat + 1 ∨ a = s.I.toNat + 2 := by omega
      all_goals simp [digits]
    · rw [if_neg ha, if_neg (by omega), if_neg (by omega), if_neg (by omega)]
      rfl
  | stRegs x =>
    have hin := (rangeFault_eq_none.mp (faultOf_stRegs x ▸ h)).resolve_left (by omega)
    refine ⟨_, exec_stRegs h, fun a => ?_⟩
    refine (State.byteAt_storeBytes (s := s.advance) hs (by rwa [State.length_regsTo]) a).trans ?_
    rw [State.length_regsTo, byteAfter]
    by_cases ha : s.I.toNat ≤ a ∧ a ≤ s.I.toNat + x.val
    · rw [if_pos (by omega), if_pos ha, State.getD_regsTo s x _ (by omega)]
    · rw [if_neg (by omega), if_neg ha]
      rfl
  | _ =>
    obtain ⟨t, ht, hframe⟩ := exec_frame _ s
    exact ⟨t, ht, fun a => by rw [State.byteAt, hframe.memory (by simp [Instr.mnemonic])]; rfl⟩

end Sys2Proof.Proofs
end

section
/-! SUPPORT. A step by what latch, fetch and decoder find (40_step_cycle R80, R83 to R85). -/

namespace Sys2Proof.Machine

theorem step_of_latched {s : State} {f : Fault} (hf : s.fault = some f) : step s = .next s := by
  simp only [step, hf]

theorem step_of_fetch_error {s : State} {f : Fault} (hf : s.fault = none) (hw : s.fetch = .error f) :
    step s = .next { s with fault := some f } := by
  simp only [step, hf, hw, State.raise]

theorem step_of_fetch_ok {s : State} {oc : Word} (hf : s.fault = none) (hw : s.fetch = .ok oc) :
    step s = execWord oc s := by
  simp only [step, hf, hw]

theorem execWord_of_error {oc : Word} {g : UnknownGroup} (h : decode oc = .error g) (s : State) :
    execWord oc s = execUnknown oc s := by
  simp only [execWord, h]

theorem execWord_of_ok {oc : Word} {i : Instr} (h : decode oc = .ok i) (s : State) : execWord oc s = exec i s := by
  simp only [execWord, h]

end Sys2Proof.Machine
end

section
/-! SUPPORT. Changing fields that no step reads: the sound timer, the dirty flag, dead stack entries and the record of
diagnostics (10_state R17, R18, R21, R24). -/

namespace Sys2Proof.Safety

open Sys2Proof.Machine

/-- A change of the fields that steer nothing, each by a function of its own. -/
structure Masking where
  sound : Byte → Byte := id
  dirty : Bool → Bool := id
  stack : Vector Word 16 → Vector Word 16 := id
  diags : List Word → List Word := id

namespace Masking

/-- The state with the change made. -/
def apply (m : Masking) (s : State) : State :=
  { s with
    soundTimer := m.sound s.soundTimer
    isDrawing := m.dirty s.isDrawing
    stack := m.stack s.stack
    diags := m.diags s.diags }

/-- The change passes through what instruction `i` does with these fields: RET reads an entry, CALL writes one, LD_ST_VX
writes the sound timer, DRW sets the dirty flag. -/
def Passes (m : Masking) (i : Instr) (s : State) : Prop :=
  match i with
  | .ret => ∀ h : 0 < s.sp.val, (m.stack s.stack)[s.sp.val - 1]'(by omega) = s.stack[s.sp.val - 1]'(by omega)
  | .call _ => ∀ (w : Word) (h : s.sp.val < 16),
      (m.stack s.stack).set s.sp.val w h = m.stack (s.stack.set s.sp.val w h)
  | .ldStVx x => m.sound s.V[x] = s.V[x]
  | .drw _ _ _ => m.dirty true = true
  | _ => True

variable (m : Masking)

theorem apply_skipIf (s : State) (c : Bool) : (m.apply s).skipIf c = m.apply (s.skipIf c) := by
  cases c <;> rfl

theorem apply_loadRegs (s : State) (base n : Nat) : (m.apply s).loadRegs base n = m.apply (s.loadRegs base n) := by
  induction n with
  | zero => rfl
  | succ n ih =>
    unfold State.loadRegs
    split
    · rw [ih]
      rfl
    · exact ih

/-- No fault condition reads these fields (60_exceptions R181 to R183). -/
theorem faultOf_apply (i : Instr) (s : State) : faultOf i (m.apply s) = faultOf i s := by
  cases i <;> rfl

/-- A change that passes through an instruction, or through a fault it takes, is there afterwards, and all else is as
without it. -/
theorem exec_apply {i : Instr} {s : State} (hm : m.Passes i s) :
    ∃ t, exec i s = .next t ∧ exec i (m.apply s) = .next (m.apply t) := by
  rcases hf : faultOf i s with _ | f
  · have hf' : faultOf i (m.apply s) = none := (m.faultOf_apply i s).trans hf
    cases i with
    | ret =>
      have hsp := faultOf_ret_eq_none.mp hf
      refine ⟨_, execRet_pop hsp, (execRet_pop (s := m.apply s) hsp).trans ?_⟩
      simp only [apply, hm hsp]
    | call nnn =>
      have hsp := faultOf_call_eq_none.mp hf
      refine ⟨_, execCall_push nnn hsp, (execCall_push (s := m.apply s) nnn hsp).trans ?_⟩
      simp only [apply, hm _ hsp]
    | ldStVx x =>
      have hst : m.sound s.V[x] = s.V[x] := hm
      refine ⟨_, rfl, ?_⟩
      simp only [exec, execLdStVx, apply, State.reg_eq, hst]
      rfl
    | drw x y n =>
      have hdirty : m.dirty true = true := hm
      refine ⟨_, exec_drw hf, (exec_drw hf').trans ?_⟩
      simp only [apply, hdirty]
      rfl
    | ldB x => exact ⟨_, exec_ldB hf, exec_ldB hf'⟩
    | stRegs x => exact ⟨_, exec_stRegs hf, exec_stRegs hf'⟩
    | ldRegs x =>
      have hload := m.apply_loadRegs s.advance s.I.toNat (x.val + 1)
      exact ⟨_, exec_ldRegs hf, (exec_ldRegs hf').trans (congrArg (fun t : State => (.next (t.setI _) : Result)) hload)⟩
    | ldVxK x =>
      rcases hk : lowestKey s.keys with _ | k
      · exact ⟨s, execLdVxK_none x hk, execLdVxK_none x hk⟩
      · exact ⟨_, execLdVxK_some x hk, execLdVxK_some x hk⟩
    | seNn x nn | sneNn x nn | seVy x y | sneVy x y | skp x | sknp x =>
      exact ⟨_, rfl, congrArg _ (m.apply_skipIf s.advance _)⟩
    | _ => exact ⟨_, rfl, rfl⟩
  · exact ⟨_, exec_of_faultOf_some hf, exec_of_faultOf_some ((m.faultOf_apply i s).trans hf)⟩

/-- A step decides by the latch, `pc` and memory alone what it does (40_step_cycle R80), so with the change made it does
the same: it keeps or sets the latch, or runs the same unknown word or the same instruction. -/
theorem step_apply_cases (s : State) :
    (∃ f, step s = .next { s with fault := f } ∧ step (m.apply s) = .next (m.apply { s with fault := f })) ∨
    (∃ oc, step s = execUnknown oc s ∧ step (m.apply s) = execUnknown oc (m.apply s)) ∨
    ∃ i, step s = exec i s ∧ step (m.apply s) = exec i (m.apply s) := by
  rcases hf : s.fault with _ | f
  · rcases hw : s.fetch with f | oc
    · exact .inl ⟨some f, step_of_fetch_error hf hw, step_of_fetch_error (s := m.apply s) hf hw⟩
    · rw [step_of_fetch_ok hf hw, step_of_fetch_ok (s := m.apply s) hf hw]
      rcases hd : decode oc with g | i
      · exact .inr (.inl ⟨oc, execWord_of_error hd s, execWord_of_error hd _⟩)
      · exact .inr (.inr ⟨i, execWord_of_ok hd s, execWord_of_ok hd _⟩)
  · exact .inl ⟨some f, hf ▸ step_of_latched hf, hf ▸ step_of_latched (s := m.apply s) hf⟩

/-- Any other sound timer and dirty flag. -/
def setSoundAndDirty (b : Byte) (d : Bool) : Masking where
  sound := fun _ => b
  dirty := fun _ => d

/-- Another value of stack entry `k`. -/
def setStackEntry (k : Fin 16) (w : Word) : Masking where
  stack := fun stack => stack.set k.val w k.isLt

/-- Any other record of diagnostics. -/
def setDiags (before : List Word) : Masking where
  diags := fun _ => before

theorem setSoundAndDirty_passes {b : Byte} {d : Bool} {i : Instr} {s : State} (hst : ∀ x, i ≠ .ldStVx x)
    (hdrw : ∀ x y n, i ≠ .drw x y n) : (setSoundAndDirty b d).Passes i s := by
  cases i with
  | ldStVx x => exact absurd rfl (hst x)
  | drw x y n => exact absurd rfl (hdrw x y n)
  | ret => exact fun _ => rfl
  | call nnn => exact fun _ _ => rfl
  | _ => trivial

/-- RET reads a live entry; no other instruction but CALL has to do with one. -/
theorem setStackEntry_passes {k : Fin 16} {w : Word} {i : Instr} {s : State} (hk : s.sp.val ≤ k.val)
    (hcall : ∀ nnn, i ≠ .call nnn) : (setStackEntry k w).Passes i s := by
  cases i with
  | call nnn => exact absurd rfl (hcall nnn)
  | ret => exact fun _ => Vector.getElem_set_ne k.isLt _ (by omega)
  | ldStVx x | drw x y n => rfl
  | _ => trivial

theorem setDiags_passes (before : List Word) (i : Instr) (s : State) : (setDiags before).Passes i s := by
  cases i with
  | ret => exact fun _ => rfl
  | call nnn => exact fun _ _ => rfl
  | ldStVx x | drw x y n => rfl
  | _ => trivial

end Masking

/-- LD_ST_VX and DRW overwrite what the other values were; every other instruction carries them along (R18, R21). -/
theorem exec_setSoundAndDirty (i : Instr) (s : State) (b : Byte) (d : Bool) :
    ∃ t u, exec i s = .next t ∧ exec i ((Masking.setSoundAndDirty b d).apply s) = .next u ∧
      u = { t with soundTimer := u.soundTimer, isDrawing := u.isDrawing } := by
  let m := Masking.setSoundAndDirty b d
  by_cases hst : ∃ x, i = .ldStVx x
  · obtain ⟨x, rfl⟩ := hst
    exact ⟨_, _, rfl, rfl, rfl⟩
  by_cases hdrw : ∃ x y n, i = .drw x y n
  · obtain ⟨x, y, n, rfl⟩ := hdrw
    rcases hf : faultOf (.drw x y n) s with _ | f
    · exact ⟨_, _, exec_drw hf, exec_drw (s := m.apply s) hf, rfl⟩
    · exact ⟨_, _, exec_of_faultOf_some hf, exec_of_faultOf_some (s := m.apply s) hf, rfl⟩
  obtain ⟨t, ht, hu⟩ := m.exec_apply (Masking.setSoundAndDirty_passes (fun x h => hst ⟨x, h⟩)
    fun x y n h => hdrw ⟨x, y, n, h⟩)
  exact ⟨t, _, ht, hu, rfl⟩

/-- No instruction but CALL makes an entry live (R17). -/
theorem exec_sp_le {i : Instr} {s t : State} (hcall : ∀ nnn, i ≠ .call nnn) (h : exec i s = .next t) :
    t.sp.val ≤ s.sp.val := by
  cases i with
  | call nnn => exact absurd rfl (hcall nnn)
  | ret =>
    rcases Nat.eq_zero_or_pos s.sp.val with hsp | hsp
    · cases (execRet_underflow hsp).symm.trans h
      exact le_rfl
    · cases (execRet_pop hsp).symm.trans h
      exact Nat.sub_le ..
  | _ =>
    obtain ⟨t', ht', hframe⟩ := exec_frame _ s
    cases ht'.symm.trans h
    exact (congrArg Fin.val (hframe.sp (by simp [Instr.mnemonic]))).le

/-- CALL writes the entry it makes live, so what that entry held before does not matter (R93). -/
theorem execCall_setStackEntry (nnn : BitVec 12) {s : State} {k : Fin 16} (w : Word) (hk : s.sp.val ≤ k.val) :
    ∃ t u, execCall nnn s = .next t ∧ execCall nnn ((Masking.setStackEntry k w).apply s) = .next u ∧
      u = { t with stack := u.stack } ∧ ∀ j : Fin 16, j.val < t.sp.val → u.stack[j] = t.stack[j] := by
  have hsp : s.sp.val < 16 := by omega
  refine ⟨_, _, execCall_push nnn hsp, execCall_push (s := (Masking.setStackEntry k w).apply s) nnn hsp, rfl,
    fun j hj => ?_⟩
  change j.val < s.sp.val + 1 at hj
  change ((s.stack.set k.val w).set s.sp.val (s.pc + 2#16))[j.val] = (s.stack.set s.sp.val (s.pc + 2#16))[j.val]
  simp only [Vector.getElem_set]
  split
  · rfl
  · rw [if_neg (by omega)]

/-- Another value of a dead entry reaches no other field and no live entry (R17). -/
theorem exec_setStackEntry (i : Instr) {s : State} {k : Fin 16} (w : Word) (hk : s.sp.val ≤ k.val) :
    ∃ t u, exec i s = .next t ∧ exec i ((Masking.setStackEntry k w).apply s) = .next u ∧
      u = { t with stack := u.stack } ∧ ∀ j : Fin 16, j.val < t.sp.val → u.stack[j] = t.stack[j] := by
  by_cases hcall : ∃ nnn, i = .call nnn
  · obtain ⟨nnn, rfl⟩ := hcall
    exact execCall_setStackEntry nnn w hk
  · have hcall' : ∀ nnn, i ≠ .call nnn := fun nnn h => hcall ⟨nnn, h⟩
    obtain ⟨t, ht, hu⟩ := Masking.exec_apply _ (Masking.setStackEntry_passes (w := w) hk hcall')
    have hle := exec_sp_le hcall' ht
    exact ⟨t, _, ht, hu, rfl, fun j hj => Vector.getElem_set_ne k.isLt _ (by omega)⟩

/-- A step emits the diagnostic of an unknown word or nothing, whatever the record holds (R84, R190). -/
theorem step_diags (s : State) (before : List Word) : ∃ t out,
    step s = .next t ∧ t.diags = s.diags ++ out ∧ out.length ≤ 1 ∧
    step { s with diags := before } = .next { t with diags := before ++ out } := by
  obtain ⟨f, ht, hu⟩ | ⟨oc, ht, hu⟩ | ⟨i, ht, hu⟩ := (Masking.setDiags before).step_apply_cases s
  · exact ⟨_, [], ht, (List.append_nil _).symm, Nat.zero_le 1, by rwa [List.append_nil]⟩
  · exact ⟨_, [oc], ht, rfl, le_rfl, hu⟩
  · obtain ⟨t, ht', hu'⟩ := Masking.exec_apply _ (Masking.setDiags_passes before i s)
    obtain ⟨t', ht'', hframe⟩ := exec_frame i s
    cases ht'.symm.trans ht''
    refine ⟨t, [], ht.trans ht', by rw [hframe.diags, List.append_nil], Nat.zero_le 1, ?_⟩
    rw [List.append_nil]
    exact hu.trans hu'

/-- Loading a program emits nothing, whatever the record holds (70 R214). -/
theorem loadProgram_diags {bytes : List Byte} {s t : State} (before : List Word) (h : loadProgram bytes s = .next t) :
    t.diags = s.diags ∧ loadProgram bytes { s with diags := before } = .next { t with diags := before } := by
  unfold loadProgram at h ⊢
  split at h
  · cases h
  · rename_i hfits
    cases h
    exact ⟨rfl, if_neg hfits⟩

end Sys2Proof.Safety
end

section
/-! SUPPORT. Fields that no step reads (10_state R17, R18, R21, R24). -/

namespace Sys2Proof.Proofs

open Sys2Proof.Machine Sys2Proof.Safety

/-- Settles O57: with any other two values a step decides alike, and an instruction carries them along or overwrites
them. -/
theorem soundTimerAndDirtyFlagAreNeverRead : Obligations.SoundTimerAndDirtyFlagAreNeverRead := by
  intro s b d
  obtain ⟨f, ht, hu⟩ | ⟨oc, ht, hu⟩ | ⟨i, ht, hu⟩ := (Masking.setSoundAndDirty b d).step_apply_cases s
  · exact ⟨_, _, ht, hu, rfl⟩
  · exact ⟨_, _, ht, hu, rfl⟩
  · obtain ⟨t, u, ht', hu', heq⟩ := exec_setSoundAndDirty i s b d
    exact ⟨t, u, ht.trans ht', hu.trans hu', heq⟩

/-- Settles O58: RET reads below `sp`, and the one entry CALL makes live it writes itself. -/
theorem deadStackEntriesAreNeverRead : Obligations.DeadStackEntriesAreNeverRead := by
  intro s k w hk
  have hlive : ∀ j : Fin 16, j.val < s.sp.val → (s.stack.set k.val w)[j] = s.stack[j] :=
    fun j hj => Vector.getElem_set_ne k.isLt _ (by omega)
  obtain ⟨f, ht, hu⟩ | ⟨oc, ht, hu⟩ | ⟨i, ht, hu⟩ := (Masking.setStackEntry k w).step_apply_cases s
  · exact ⟨_, _, ht, hu, rfl, hlive⟩
  · exact ⟨_, _, ht, hu, rfl, hlive⟩
  · obtain ⟨t, u, ht', hu', heq⟩ := exec_setStackEntry i w hk
    exact ⟨t, u, ht.trans ht', hu.trans hu', heq⟩

/-- Settles O59: only an unknown word adds to the record; every other step and every other event carries it along. -/
theorem diagnosticsSteerNothing : Obligations.DiagnosticsSteerNothing := by
  refine ⟨step_diags, fun e a b before h => ?_⟩
  cases e with
  | step =>
    obtain ⟨t, ht, rfl⟩ := inPhase_eq_next.mp h
    obtain ⟨t', out, ht', hout, hlen, hstep⟩ := step_diags a.machine before
    cases ht'.symm.trans ht
    exact ⟨out, hout, hlen, congrArg (inPhase .running) hstep⟩
  | loadProgram bytes =>
    rcases hp : a.phase with _ | _
    · simp only [Event.apply, hp] at h ⊢
      obtain ⟨t, ht, rfl⟩ := inPhase_eq_next.mp h
      obtain ⟨hdiags, hload⟩ := loadProgram_diags before ht
      refine ⟨[], by rw [hdiags, List.append_nil], Nat.zero_le 1, ?_⟩
      rw [List.append_nil, hload]
      rfl
    · simp only [Event.apply, hp, reduceCtorEq] at h
  | reset | timerTick | keyUpdate k | clearDirty =>
    cases h
    exact ⟨[], (List.append_nil _).symm, Nat.zero_le 1, by rw [List.append_nil]; rfl⟩

end Sys2Proof.Proofs
end

section
/-! SUPPORT. The fetched word as a number, and what ST_REGS leaves in the bytes it stores (20_memory R46, R48). -/

namespace Sys2Proof

/-- The byte at the lower address is the more significant (R46). -/
theorem toNat_wordOfBytes (hi lo : Byte) : (wordOfBytes hi lo).toNat = hi.toNat * 256 + lo.toNat := by
  rw [wordOfBytes, BitVec.toNat_append, ← Nat.shiftLeft_add_eq_or_of_lt lo.isLt, Nat.shiftLeft_eq]

end Sys2Proof

namespace Sys2Proof.Safety

open Sys2Proof.Machine

/-- ST_REGS in range leaves `V[k]` at address `I + k` (R163). -/
theorem byteAt_exec_stRegs {x : Reg} {s t : State} (hs : Canonical s) (hin : s.I.toNat + x.val ≤ 0xFFF)
    (ht : exec (.stRegs x) s = .next t) {k : Nat} (hk : k ≤ x.val) :
    t.byteAt (s.I.toNat + k) = s.V[k]'(by omega) := by
  have hnf : faultOf (.stRegs x) s = none := by
    rw [faultOf_stRegs, rangeFault_none (by omega)]
  obtain ⟨t', ht', hbytes⟩ := Proofs.memoryAfterEveryInstruction _ s hs hnf
  cases ht'.symm.trans ht
  rw [hbytes, byteAfter, if_pos (by omega), Nat.add_sub_cancel_left]
  simp [show k < 16 by omega]

end Sys2Proof.Safety
end

section
/-! SUPPORT. The fetch and the memory it reads (20_memory R46, R47, R53; 40_step_cycle R81). -/

namespace Sys2Proof.Proofs

open Sys2Proof.Machine Sys2Proof.Safety

/-- Settles O46: the fetch reads the two bytes at `I + k` and `I + k + 1`, which ST_REGS has just stored. -/
theorem storedInstructionIsFetched : Obligations.StoredInstructionIsFetched := by
  intro x s t u k h hs hin ht hmem hpc
  have hbyte (j : Nat) (hj : j ≤ x.val) : u.byteAt (s.I.toNat + j) = s.V[j]'(by omega) := by
    rw [State.byteAt, hmem]
    exact byteAt_exec_stRegs hs hin ht hj
  rw [State.fetch_ok (by omega), hpc, Nat.add_assoc, hbyte k (by omega), hbyte (k + 1) h]

/-- Settles O8: both bytes are addresses of memory exactly when `pc` is at most 0xFFE. -/
theorem fetchIsBigEndianOrFaults : Obligations.FetchIsBigEndianOrFaults := by
  refine fun s => ⟨fun hpc => ?_, fun hpc hfault => ?_⟩
  · exact ⟨_, State.fetch_ok hpc, toNat_wordOfBytes _ _⟩
  · exact step_of_fetch_error hfault (State.fetch_fault hpc)

end Sys2Proof.Proofs
end

section
/-! SUPPORT. A word put together from the fields of its format, and the fields as numbers (30_encoding R61, R62). -/

namespace Sys2Proof

theorem family_append_fieldX (oc : Word) : family oc ++ regBits (fieldX oc) = oc.extractLsb' 8 8 :=
  BitVec.extractLsb'_append_extractLsb'_eq_extractLsb' (by omega)

/-- A word is its family nibble, its `X` and its low byte (formats XI and XS). -/
theorem registerByte_fields (oc : Word) : family oc ++ regBits (fieldX oc) ++ fieldNN oc = oc := by
  rw [family_append_fieldX]
  exact wordOfBytes_halves oc

/-- A word is its four nibbles (formats XY and XYN). -/
theorem nibbles_fields (oc : Word) : family oc ++ regBits (fieldX oc) ++ regBits (fieldY oc) ++ fieldN oc = oc := by
  have hxy : oc.extractLsb' 8 8 ++ regBits (fieldY oc) = oc.extractLsb' 4 12 :=
    BitVec.extractLsb'_append_extractLsb'_eq_extractLsb' (by omega)
  rw [family_append_fieldX, hxy]
  exact append_extract (m := 12) (k := 4) oc

theorem toNat_family (oc : Word) : (family oc).toNat = oc.toNat / 4096 := by
  rw [family, BitVec.extractLsb'_toNat, Nat.shiftRight_eq_div_pow]
  omega

theorem val_fieldX (oc : Word) : (fieldX oc).val = oc.toNat / 256 % 16 := by
  rw [fieldX, BitVec.val_toFin, BitVec.extractLsb'_toNat, Nat.shiftRight_eq_div_pow]

theorem val_fieldY (oc : Word) : (fieldY oc).val = oc.toNat / 16 % 16 := by
  rw [fieldY, BitVec.val_toFin, BitVec.extractLsb'_toNat, Nat.shiftRight_eq_div_pow]

theorem toNat_fieldN (oc : Word) : (fieldN oc).toNat = oc.toNat % 16 := BitVec.extractLsb'_toNat 0 4 oc

theorem toNat_fieldNN (oc : Word) : (fieldNN oc).toNat = oc.toNat % 256 := BitVec.extractLsb'_toNat 0 8 oc

theorem toNat_fieldNNN (oc : Word) : (fieldNNN oc).toNat = oc.toNat % 4096 := BitVec.extractLsb'_toNat 0 12 oc

end Sys2Proof
end

section
/-! SUPPORT. The decoder: what it reads from an encoding, the two levels of its dispatch, and where its second level
finds an instruction or none (30_encoding R64 to R69). -/

namespace Sys2Proof

theorem decode_encode (i : Instr) : decode (encode i) = .ok i := by
  cases i with
  | cls | ret => rfl
  | jp | call | ldI | jpV0 => simp [encode, decode]
  | seNn | sneNn | ldNn | addNn | rnd => simp [encode, decode]
  | seVy | sneVy | drw => simp [encode, decode]
  | ldVy | orVy | andVy | xorVy | addVy | sub | shr | subn | shl => simp [encode, decode, decode8]
  | skp | sknp => simp [encode, decode, decodeE]
  | ldVxDt | ldVxK | ldDtVx | ldStVx | addI | ldF | ldB | stRegs | ldRegs => simp [encode, decode, decodeF]

/-- The first level (R64): ten families hold one instruction each, which every word of the family encodes; the other
six have a second level. -/
theorem decode_dispatch (oc : Word) :
    (family oc ∈ [0x1#4, 0x2#4, 0x3#4, 0x4#4, 0x6#4, 0x7#4, 0xA#4, 0xB#4, 0xC#4, 0xD#4] ∧
      ∃ i, decode oc = .ok i ∧ encode i = oc) ∨
    (family oc = 0x0#4 ∧ decode oc = decode0 (fieldNNN oc)) ∨
    (family oc = 0x5#4 ∧
      decode oc = if fieldN oc = 0#4 then .ok (.seVy (fieldX oc) (fieldY oc)) else .error .family5) ∨
    (family oc = 0x8#4 ∧ decode oc = decode8 (fieldN oc) (fieldX oc) (fieldY oc)) ∨
    (family oc = 0x9#4 ∧
      decode oc = if fieldN oc = 0#4 then .ok (.sneVy (fieldX oc) (fieldY oc)) else .error .family9) ∨
    (family oc = 0xE#4 ∧ decode oc = decodeE (fieldNN oc) (fieldX oc)) ∨
    (family oc = 0xF#4 ∧ decode oc = decodeF (fieldNN oc) (fieldX oc)) := by
  unfold decode
  split -- the arm of family `f` is the case h_(f + 1)
  case h_2 hf | h_3 hf | h_11 hf | h_12 hf =>
    exact .inl ⟨by simp [hf], _, rfl, by rw [encode, ← hf, address_fields]⟩
  case h_4 hf | h_5 hf | h_7 hf | h_8 hf | h_13 hf =>
    exact .inl ⟨by simp [hf], _, rfl, by rw [encode, ← hf, registerByte_fields]⟩
  case h_14 hf => exact .inl ⟨by simp [hf], _, rfl, by rw [encode, ← hf]; exact nibbles_fields oc⟩
  case h_1 hf | h_6 hf | h_9 hf | h_10 hf | h_15 hf => simp [hf]
  case h_16 =>
    have hf : family oc = 0xF#4 := by
      simp only [imp_false] at *
      bv_omega
    simp [hf]

section SecondLevel
variable {nnn : BitVec 12} {n : BitVec 4} {nn : Byte} {x y : Reg} {i : Instr}

theorem encode_of_decode0 (h : decode0 nnn = .ok i) : encode i = 0x0#4 ++ nnn := by
  unfold decode0 at h
  split_ifs at h <;> cases h <;> subst nnn <;> rfl

theorem encode_of_decode8 (h : decode8 n x y = .ok i) : encode i = 0x8#4 ++ regBits x ++ regBits y ++ n := by
  unfold decode8 at h
  split_ifs at h <;> cases h <;> subst n <;> rfl

theorem encode_of_decodeE (h : decodeE nn x = .ok i) : encode i = 0xE#4 ++ regBits x ++ nn := by
  unfold decodeE at h
  split_ifs at h <;> cases h <;> subst nn <;> rfl

theorem encode_of_decodeF (h : decodeF nn x = .ok i) : encode i = 0xF#4 ++ regBits x ++ nn := by
  unfold decodeF at h
  split_ifs at h <;> cases h <;> subst nn <;> rfl

/-- A chain of tests ends in an error exactly when each test fails. -/
theorem exists_ite_ok_eq_error_iff {c : Prop} [Decidable c] {r : Except UnknownGroup Instr} :
    (∃ g, (if c then .ok i else r) = .error g) ↔ ¬c ∧ ∃ g, r = .error g := by
  split_ifs <;> simp [*]

theorem decode0_eq_error_iff : (∃ g, decode0 nnn = .error g) ↔ nnn.toNat ≠ 0x0E0 ∧ nnn.toNat ≠ 0x0EE := by
  simp [decode0, exists_ite_ok_eq_error_iff, BitVec.toNat_eq]

theorem decode8_eq_error_iff :
    (∃ g, decode8 n x y = .error g) ↔ n.toNat ∈ [8, 9, 0xA, 0xB, 0xC, 0xD, 0xF] := by
  simp only [decode8, exists_ite_ok_eq_error_iff, Except.error.injEq, exists_eq', and_true]
  revert n
  decide

theorem decodeE_eq_error_iff : (∃ g, decodeE nn x = .error g) ↔ nn.toNat ∉ [0x9E, 0xA1] := by
  simp [decodeE, exists_ite_ok_eq_error_iff, BitVec.toNat_eq]

theorem decodeF_eq_error_iff :
    (∃ g, decodeF nn x = .error g) ↔ nn.toNat ∉ [0x07, 0x0A, 0x15, 0x18, 0x1E, 0x29, 0x33, 0x55, 0x65] := by
  simp [decodeF, exists_ite_ok_eq_error_iff, BitVec.toNat_eq]

end SecondLevel

theorem encode_of_decode {oc : Word} {i : Instr} (h : decode oc = .ok i) : encode i = oc := by
  rcases decode_dispatch oc with ⟨-, j, hd, hj⟩ | ⟨hf, hd⟩ | ⟨hf, hd⟩ | ⟨hf, hd⟩ |
    ⟨hf, hd⟩ | ⟨hf, hd⟩ | ⟨hf, hd⟩ <;>
    rw [hd] at h
  · cases h
    exact hj
  · rw [encode_of_decode0 h, ← hf, address_fields]
  · split_ifs at h with hn
    cases h
    rw [encode, ← hf, ← hn, nibbles_fields]
  · rw [encode_of_decode8 h, ← hf, nibbles_fields]
  · split_ifs at h with hn
    cases h
    rw [encode, ← hf, ← hn, nibbles_fields]
  · rw [encode_of_decodeE h, ← hf, registerByte_fields]
  · rw [encode_of_decodeF h, ← hf, registerByte_fields]

end Sys2Proof
end

section
/-! SUPPORT. The opcode map against the decoder: the fields a row's mask fixes are those of its match (30_encoding
R70). -/

namespace Sys2Proof.Laws

theorem encode_and_rowMask : ∀ i, RowPattern.Statement i
  | .cls => RowPattern.cls
  | .ret => RowPattern.ret
  | .jp nnn => RowPattern.jp nnn
  | .call nnn => RowPattern.call nnn
  | .seNn x nn => RowPattern.seNn x nn
  | .sneNn x nn => RowPattern.sneNn x nn
  | .seVy x y => RowPattern.seVy x y
  | .ldNn x nn => RowPattern.ldNn x nn
  | .addNn x nn => RowPattern.addNn x nn
  | .ldVy x y => RowPattern.ldVy x y
  | .orVy x y => RowPattern.orVy x y
  | .andVy x y => RowPattern.andVy x y
  | .xorVy x y => RowPattern.xorVy x y
  | .addVy x y => RowPattern.addVy x y
  | .sub x y => RowPattern.sub x y
  | .shr x y => RowPattern.shr x y
  | .subn x y => RowPattern.subn x y
  | .shl x y => RowPattern.shl x y
  | .sneVy x y => RowPattern.sneVy x y
  | .ldI nnn => RowPattern.ldI nnn
  | .jpV0 nnn => RowPattern.jpV0 nnn
  | .rnd x nn => RowPattern.rnd x nn
  | .drw x y n => RowPattern.drw x y n
  | .skp x => RowPattern.skp x
  | .sknp x => RowPattern.sknp x
  | .ldVxDt x => RowPattern.ldVxDt x
  | .ldVxK x => RowPattern.ldVxK x
  | .ldDtVx x => RowPattern.ldDtVx x
  | .ldStVx x => RowPattern.ldStVx x
  | .addI x => RowPattern.addI x
  | .ldF x => RowPattern.ldF x
  | .ldB x => RowPattern.ldB x
  | .stRegs x => RowPattern.stRegs x
  | .ldRegs x => RowPattern.ldRegs x

section Row
variable {oc : Word} {m : Mnemonic} (h : oc &&& rowMask m = rowMatch m)
include h

/-- Bits that the mask of a row fixes are those of its match. -/
theorem extract_eq_of_row {start len : Nat} (hmask : (rowMask m).extractLsb' start len = BitVec.allOnes len) :
    oc.extractLsb' start len = (rowMatch m).extractLsb' start len := by
  rw [← h, BitVec.extractLsb'_and, hmask, BitVec.and_allOnes]

/-- Every row fixes the family (R64). -/
theorem family_eq_of_row : family oc = family (rowMatch m) := extract_eq_of_row h (by cases m <;> rfl)

theorem decode_of_row : ∃ i, decode oc = .ok i ∧ i.mnemonic = m := by
  have hf := family_eq_of_row h
  cases m with
  | CLS | RET =>
    cases BitVec.and_allOnes.symm.trans h
    exact ⟨_, rfl, rfl⟩
  | JP | CALL | LD_I | JP_V0 | SE_NN | SNE_NN | LD_NN | ADD_NN | RND | DRW =>
    rw [decode, hf]
    exact ⟨_, rfl, rfl⟩
  | SE_VY | LD_VY | OR | AND | XOR | ADD_VY | SUB | SHR | SUBN | SHL | SNE_VY =>
    have hn : fieldN oc = fieldN (rowMatch _) := extract_eq_of_row h rfl
    rw [decode, hf, hn]
    exact ⟨_, rfl, rfl⟩
  | SKP | SKNP | LD_VX_DT | LD_VX_K | LD_DT_VX | LD_ST_VX | ADD_I | LD_F | LD_B | ST_REGS | LD_REGS =>
    have hnn : fieldNN oc = fieldNN (rowMatch _) := extract_eq_of_row h rfl
    rw [decode, hf, hnn]
    exact ⟨_, rfl, rfl⟩

end Row

theorem row_iff_decode {oc : Word} {m : Mnemonic} :
    oc &&& rowMask m = rowMatch m ↔ ∃ i, decode oc = .ok i ∧ i.mnemonic = m := by
  refine ⟨decode_of_row, ?_⟩
  rintro ⟨i, hi, rfl⟩
  cases encode_of_decode hi
  exact encode_and_rowMask i

end Sys2Proof.Laws
end

section
/-! SUPPORT. The encoding: fields, decoder, encoder and opcode map agree (30_encoding R60 to R72). -/

namespace Sys2Proof.Proofs

open Sys2Proof.Laws

/-- Settles O1: the decoder reads back the fields the encoder wrote, format by format; the two bytes of an encoding put
together again are the word. -/
theorem decodeOfEncodeIsIdentity : Obligations.DecodeOfEncodeIsIdentity := by
  refine ⟨decode_encode, fun i rest => ?_⟩
  simp only [encodeBytes, List.cons_append, List.nil_append, decodeBytes, wordOfBytes_halves, decode_encode]

/-- Settles O2: each arm of the dispatch keeps all the fields its format has, and these make up the word. -/
theorem encodeOfDecodeIsIdentity : Obligations.EncodeOfDecodeIsIdentity := fun _ _ => encode_of_decode

/-- Settles O3: a word is in a row exactly when it decodes to an instruction of it, and it decodes to at most one. -/
theorem decodeFollowsOpcodeMap : Obligations.DecodeFollowsOpcodeMap := by
  refine ⟨fun _ _ => row_iff_decode, fun oc m m' h h' => ?_⟩
  obtain ⟨i, hi, rfl⟩ := decode_of_row h
  obtain ⟨j, hj, rfl⟩ := decode_of_row h'
  cases hi.symm.trans hj
  rfl

/-- Settles O4: only the six families with a second level hold unknown words, each those its tests leave over. -/
theorem unknownWordsAreExactlyThese : Obligations.UnknownWordsAreExactlyThese := by
  intro oc
  rcases decode_dispatch oc with ⟨hf, i, hd, -⟩ | ⟨hf, hd⟩ | ⟨hf, hd⟩ | ⟨hf, hd⟩ |
    ⟨hf, hd⟩ | ⟨hf, hd⟩ | ⟨hf, hd⟩ <;>
    rw [hd] <;> simp only [BitVec.toNat_eq, toNat_family, BitVec.reduceToNat, List.mem_cons, List.not_mem_nil,
      or_false] at hf ⊢
  · simp only [reduceCtorEq, exists_false, false_iff]
    omega
  · rw [decode0_eq_error_iff, toNat_fieldNNN]
    omega
  · simp [exists_ite_ok_eq_error_iff, toNat_fieldN, hf]
  · simp [decode8_eq_error_iff, toNat_fieldN, hf]
  · simp [exists_ite_ok_eq_error_iff, toNat_fieldN, hf]
  · simp [decodeE_eq_error_iff, toNat_fieldNN, hf]
  · simp [decodeF_eq_error_iff, toNat_fieldNN, hf]

/-- Settles O5: a shift divides by a power of two, and a mask of ones takes the remainder. -/
theorem fieldsByShiftAndMask : Obligations.FieldsByShiftAndMask := by
  intro oc
  have hmask (a k : Nat) : a % 2 ^ k = a &&& (2 ^ k - 1) := (Nat.and_two_pow_sub_one_eq_mod a k).symm
  simp only [toNat_family, val_fieldX, val_fieldY, toNat_fieldN, toNat_fieldNN, toNat_fieldNNN, BitVec.toNat_and,
    BitVec.toNat_ushiftRight, Nat.shiftRight_eq_div_pow]
  exact ⟨trivial, hmask _ 4, hmask _ 4, hmask _ 4, hmask _ 8, hmask _ 12⟩

/-- Settles O6: the ten words are the encodings of their instructions; the decoder runs on the six unknown words. -/
theorem specWordsDecode : Obligations.SpecWordsDecode :=
  ⟨decode_encode .cls, decode_encode .ret, decode_encode (.jp 0xABC#12), decode_encode (.seNn 10 0x42#8),
    decode_encode (.addVy 10 11), decode_encode (.sneVy 1 2), decode_encode (.rnd 1 0x3C#8),
    decode_encode (.drw 5 12 3), decode_encode (.sknp 15), decode_encode (.ldRegs 7), rfl, rfl, rfl, rfl, rfl, rfl⟩

end Sys2Proof.Proofs
end

section
/-! SUPPORT. What an instruction does to the fault latch (60_exceptions R180, R184), and steps that leave a state where
it is (40_step_cycle R85, R87). -/

namespace Sys2Proof.Safety

open Sys2Proof.Machine

/-- An instruction whose fault condition does not hold completes and leaves the latch alone (R180). -/
theorem exec_of_faultOf_none {i : Instr} {s : State} (h : faultOf i s = none) :
    ∃ t, exec i s = .next t ∧ t.fault = s.fault := by
  cases i with
  | ret => exact ⟨_, execRet_pop (faultOf_ret_eq_none.mp h), rfl⟩
  | call nnn => exact ⟨_, execCall_push nnn (faultOf_call_eq_none.mp h), rfl⟩
  | drw x y n => exact ⟨_, exec_drw h, rfl⟩
  | ldB x => exact ⟨_, exec_ldB h, rfl⟩
  | stRegs x => exact ⟨_, exec_stRegs h, rfl⟩
  | ldRegs x => exact ⟨_, exec_ldRegs h, by simp⟩
  | ldVxK x =>
    rcases hk : lowestKey s.keys with _ | k
    · exact ⟨s, execLdVxK_none x hk, rfl⟩
    · exact ⟨_, execLdVxK_some x hk, rfl⟩
  | _ => exact ⟨_, rfl, by simp⟩

/-- From a state without a latched fault, the latch after an instruction is the tabled fault, and a fault is the only
change (R180, R184). -/
theorem exec_latch {i : Instr} {s t : State} (hf : s.fault = none) (ht : exec i s = .next t) :
    t.fault = faultOf i s ∧ (t.fault ≠ none → t = { s with fault := t.fault }) := by
  rcases hi : faultOf i s with _ | f
  · obtain ⟨t', ht', hlatch⟩ := exec_of_faultOf_none hi
    cases ht'.symm.trans ht
    have hnone := hlatch.trans hf
    exact ⟨hnone, fun hsome => absurd hnone hsome⟩
  · cases (exec_of_faultOf_some hi).symm.trans ht
    exact ⟨rfl, fun _ => rfl⟩

/-- A state that one step leaves as it is, any number of steps leaves as it is. -/
theorem steps_of_fixed {s : State} (h : step s = .next s) (n : Nat) : steps n s = .next s := by
  induction n with
  | zero => rfl
  | succ n ih => simp only [steps, h, ih]

/-- A jump to where `pc` is undoes the pre-increment and does nothing else (41_flow R92). -/
theorem exec_jp_self {s : State} {a : BitVec 12} (h : s.pc.toNat = a.toNat) : exec (.jp a) s = .next s := by
  have hpc : addrOf a = s.pc := by rw [addrOf_eq_ofNat, ← h, BitVec.ofNat_toNat, BitVec.setWidth_eq]
  rw [exec, execJp, hpc]
  rfl

end Sys2Proof.Safety
end

section
/-! SUPPORT. The step cycle: what a step runs, that it always answers, the fault it ends with, and the steps that change
nothing (40_step_cycle R80 to R87). -/

namespace Sys2Proof.Proofs

open Sys2Proof.Machine Sys2Proof.Safety

/-- Settles O10: a step under a latched fault is a no-op, so the state is a fixed point. -/
theorem haltedCoreStaysAsItIs : Obligations.HaltedCoreStaysAsItIs := by
  intro s n hf
  obtain ⟨f, hlatched⟩ := Option.ne_none_iff_exists'.mp hf
  have hstep := step_of_latched hlatched
  exact ⟨hstep, steps_of_fixed hstep n⟩

/-- Settles O11: an instruction completes or latches its tabled fault; a step is a no-op, latches the fetch's fault, or
is `Exec` of the word it fetched, an unknown word included. -/
theorem everyStepAnswersNext : Obligations.EveryStepAnswersNext := by
  refine ⟨fun i s => ?_, fun s => ?_⟩
  · obtain ⟨t, ht, -⟩ := exec_frame i s
    exact ⟨t, ht⟩
  · obtain ⟨t, ht, -⟩ := step_writesTo s
    exact ⟨t, ht⟩

/-- Settles O13: the checks in the order of R186, the fetch range before the instruction; an unknown word raises no
fault. -/
theorem stepFaultIsPrecise : Obligations.StepFaultIsPrecise := by
  intro s t hf ht
  by_cases hpc : s.pc.toNat > 0xFFE
  · rw [if_pos hpc]
    cases (step_of_fetch_error hf (State.fetch_fault hpc)).symm.trans ht
    exact ⟨rfl, fun _ => rfl⟩
  · rw [if_neg hpc]
    have hexec := (step_of_fetch_ok hf (State.fetch_ok (Nat.le_of_not_lt hpc))).symm.trans ht
    rcases hd : decode (wordOfBytes (s.byteAt s.pc.toNat) (s.byteAt (s.pc.toNat + 1))) with g | i
    · cases (execWord_of_error hd s).symm.trans hexec
      exact ⟨hf, fun hsome => absurd hf hsome⟩
    · exact exec_latch hf ((execWord_of_ok hd s).symm.trans hexec)

/-- Settles O14: the jump puts `pc` back where it was, so the state is a fixed point of the step. -/
theorem selfJumpLeavesStateUnchanged : Obligations.SelfJumpLeavesStateUnchanged := by
  intro s a n hf hpc _ hw
  refine steps_of_fixed ?_ n
  calc step s = execWord (encode (.jp a)) s := step_of_fetch_ok hf hw
    _ = exec (.jp a) s := execWord_of_ok (decode_encode _) s
    _ = .next s := exec_jp_self hpc

/-- Settles O7: the fetch is in range, and the word it finds decodes. -/
theorem stepRunsDecodedInstruction : Obligations.StepRunsDecodedInstruction :=
  fun s _ hf hpc hd => (step_of_fetch_ok hf (State.fetch_ok hpc)).trans (execWord_of_ok hd s)

/-- Settles O9: `Exec` of an unknown word is the pre-increment and the diagnostic. -/
theorem unknownWordIsNoOpWithDiagnostic : Obligations.UnknownWordIsNoOpWithDiagnostic :=
  fun s _ _ hf hw hd => (step_of_fetch_ok hf hw).trans (execWord_of_error hd s)

end Sys2Proof.Proofs
end

section
/-! SUPPORT. Families 0, 1 and 2 and JP_V0, instruction by instruction: the display CLS leaves, where the jumps lead, and
a RET that answers a CALL (41_flow R90 to R95, 44_misc R127). -/

namespace Sys2Proof.Machine

theorem Display.cell_blank (c : Fin 2048) : Display.cell (Vector.replicate 32 0#64) c = false := by
  simp [Display.cell]

/-- JP (R92). -/
theorem execJp_eq (nnn : BitVec 12) (s : State) :
    execJp nnn s = .next { s with pc := BitVec.ofNat 16 nnn.toNat } := by
  rw [← addrOf_eq_ofNat]
  rfl

/-- JP_V0 (R127). -/
theorem execJpV0_eq (nnn : BitVec 12) (s : State) :
    execJpV0 nnn s = .next { s with pc := BitVec.ofNat 16 (nnn.toNat + s.V[0].toNat) } := by
  rw [← addrOf_add_byte_eq_ofNat]
  rfl

/-- RET where the last live entry is known (R91). -/
theorem execRet_of_top {s : State} {k : Fin 16} (hsp : s.sp = k.succ) :
    execRet s = .next { s with sp := k.castSucc, pc := s.stack[k] } := by
  obtain ⟨⟩ := s
  cases hsp
  exact execRet_pop (Nat.succ_pos k.val)

end Sys2Proof.Machine

namespace Sys2Proof.Proofs

open Sys2Proof.Machine Sys2Proof.Safety

/-- Settles O26: the last live entry is the one the CALL wrote, and RET takes `pc` from it. -/
theorem returnContinuesAfterCall : Obligations.ReturnContinuesAfterCall := by
  intro nnn s t u hs hcall hdepth hlive
  cases (execCall_push nnn hs).symm.trans hcall
  have htop := hlive ⟨s.sp.val, hs⟩ (Nat.lt_succ_self _)
  refine ⟨_, execRet_of_top (k := ⟨s.sp.val, hs⟩) hdepth, ?_, rfl⟩
  exact htop.trans (Vector.getElem_set_self hs)

/-- Settles O22: a display of zero rows has no cell lit. -/
theorem clsTurnsEveryCellOff : Obligations.ClsTurnsEveryCellOff :=
  ⟨decode_encode .cls, fun _ => ⟨_, rfl, Display.cell_blank, rfl⟩⟩

/-- Settles O23: the pop by the depth of the stack. -/
theorem retPopsOrUnderflows : Obligations.RetPopsOrUnderflows :=
  ⟨decode_encode .ret, fun _ => execRet_pop, fun _ => execRet_underflow⟩

/-- Settles O24: the push by the depth of the stack. -/
theorem callPushesOrOverflows : Obligations.CallPushesOrOverflows := by
  refine fun nnn => ⟨decode_encode (.call nnn), fun s h => ?_, fun _ => execCall_overflow nnn⟩
  rw [← addrOf_eq_ofNat]
  exact execCall_push nnn h

/-- Settles O25: the sum of 12 bits and 8 bits fits in 16, so JP_V0 does not wrap. -/
theorem jumpsAssignPc : Obligations.JumpsAssignPc := by
  intro nnn s
  have hnnn := nnn.isLt
  have hv := s.V[0].isLt
  exact ⟨decode_encode (.jp nnn), decode_encode (.jpV0 nnn), execJp_eq nnn s, execJpV0_eq nnn s, by omega⟩

end Sys2Proof.Proofs
end

section
/-! SUPPORT. The whole state a skip leaves: the pre-increment, one more 2 where it is taken, and no field but `pc`
(10_state R13, 40_step_cycle R82). -/

namespace Sys2Proof.Machine

theorem State.skip_eq (s : State) (c : Bool) :
    s.advance.skipIf c = { s with pc := if c then s.pc + 4#16 else s.pc + 2#16 } := by
  rw [← State.skip_pc]
  cases c <;> rfl

theorem State.skip_decide_eq (s : State) (p : Prop) [Decidable p] :
    s.advance.skipIf (decide p) = { s with pc := if p then s.pc + 4#16 else s.pc + 2#16 } := by
  simp only [State.skip_eq, decide_eq_true_eq]

end Sys2Proof.Machine
end

section
/-! SUPPORT. The register skips, LD_NN and ADD_NN (42_skip_load_add_3_7, 44_misc_9_C R125). -/

namespace Sys2Proof.Proofs

open Sys2Proof.Machine

/-- Settles O27: each of the four is one skip, under its own comparison. -/
theorem registerSkips : Obligations.RegisterSkips := by
  refine fun x y nn s => ⟨decode_encode (.seNn x nn), decode_encode (.sneNn x nn), decode_encode (.seVy x y),
    decode_encode (.sneVy x y), ?seNn, ?sneNn, ?seVy, ?sneVy⟩
  case seNn => exact congrArg _ (s.skip_decide_eq (s.V[x] = nn))
  case sneNn => exact congrArg _ (s.skip_decide_eq (s.V[x] ≠ nn))
  case seVy => exact congrArg _ (s.skip_decide_eq (s.V[x] = s.V[y]))
  case sneVy => exact congrArg _ (s.skip_decide_eq (s.V[x] ≠ s.V[y]))

/-- Settles O29: both write one register and no flag; the sum of bytes is the sum modulo 256. -/
theorem loadByteAndAddByte : Obligations.LoadByteAndAddByte := by
  refine fun x nn s => ⟨decode_encode (.ldNn x nn), decode_encode (.addNn x nn), rfl, ?_⟩
  rw [← add_eq_ofNat]
  rfl

end Sys2Proof.Proofs
end

section
/-! SUPPORT. The flags of family 8 as the comparisons the rules write, and the whole state a flag-writing instruction
leaves (43_alu_8 R110, R115, R116, R118). -/

namespace Sys2Proof.Machine

theorem flagBit_decide (p : Prop) [Decidable p] : flagBit (decide p) = if p then 1#8 else 0#8 := by
  simp only [flagBit, decide_eq_true_eq]

theorem carryFlag_eq_ite (a b : Byte) : carryFlag a b = if a.toNat + b.toNat > 255 then 1#8 else 0#8 :=
  flagBit_decide _

theorem greaterFlag_eq_ite (a b : Byte) : greaterFlag a b = if a.toNat > b.toNat then 1#8 else 0#8 :=
  flagBit_decide _

/-- The two writes of R110, stated for any form `f'`, `r'` in which a rule gives the flag and the result. -/
theorem State.advance_setFlagThenReg_eq (s : State) (x : Reg) {f f' r r' : Byte} (hf : f = f') (hr : r = r') :
    s.advance.setFlagThenReg x f r =
      { s with pc := s.pc + 2#16, V := (s.V.set 15 f').set x.val r' x.isLt } := by
  subst hf hr
  rfl

/-- SUB and SUBN, which differ only in which operand is the minuend `a` (R116, R118). -/
theorem State.advance_setDifference_eq (s : State) (x : Reg) (a b : Byte) :
    s.advance.setFlagThenReg x (greaterFlag a b) (a - b) = { s with
      pc := s.pc + 2#16
      V := (s.V.set 15 (if a.toNat > b.toNat then 1#8 else 0#8)).set x.val
        (BitVec.ofNat 8 ((a.toNat + 256 - b.toNat) % 256)) x.isLt } :=
  s.advance_setFlagThenReg_eq x (greaterFlag_eq_ite a b) (sub_eq_ofNat a b)

end Sys2Proof.Machine
end

section
/-! SUPPORT. Family 8, instruction by instruction (43_alu_8 R111 to R119). -/

namespace Sys2Proof.Proofs

open Sys2Proof.Machine

/-- Settles O30: each of the four is the pre-increment and one register write. -/
theorem moveAndLogic : Obligations.MoveAndLogic :=
  fun x y _ => ⟨decode_encode (.ldVy x y), decode_encode (.orVy x y), decode_encode (.andVy x y),
    decode_encode (.xorVy x y), rfl, rfl, rfl, rfl⟩

/-- Settles O31: both writes are computed from the state before the step, so the sum is of the old operands. -/
theorem addSetsCarryThenSum : Obligations.AddSetsCarryThenSum := by
  refine fun x y s => ⟨decode_encode (.addVy x y), ?_⟩
  exact congrArg _ (s.advance_setFlagThenReg_eq x (carryFlag_eq_ite s.V[x] s.V[y]) (add_eq_ofNat s.V[x] s.V[y]))

/-- Settles O32: one lemma for both, the operands exchanged. -/
theorem subtractionsSetStrictFlag : Obligations.SubtractionsSetStrictFlag := by
  refine fun x y s => ⟨decode_encode (.sub x y), decode_encode (.subn x y), ?sub, ?subn⟩
  case sub => exact congrArg _ (s.advance_setDifference_eq x s.V[x] s.V[y])
  case subn => exact congrArg _ (s.advance_setDifference_eq x s.V[y] s.V[x])

/-- Settles O33: a shift by one halves or doubles the byte; SHL's flag is the model's mask of VX as it stands. -/
theorem shiftsIgnoreYAndSetFlag : Obligations.ShiftsIgnoreYAndSetFlag := by
  refine fun x y s => ⟨decode_encode (.shr x y), decode_encode (.shl x y), ?shr, ?shl⟩
  case shr =>
    exact congrArg _ (s.advance_setFlagThenReg_eq x (shrFlag_eq_ofNat s.V[x]) (ushiftRight_one_eq_ofNat s.V[x]))
  case shl =>
    exact congrArg _ (s.advance_setFlagThenReg_eq x (f := shlFlag s.V[x]) rfl (shiftLeft_one_eq_ofNat s.V[x]))

end Sys2Proof.Proofs
end

section
/-! SUPPORT. LD_I, LD_F and RND (44_misc_9_C R126, R128, 47_timers_index_memory_F R161). -/

namespace Sys2Proof.Machine

theorem and_and_not_eq_zero (r mask : Byte) : (r &&& mask) &&& ~~~mask = 0#8 := by
  rw [BitVec.and_assoc, BitVec.and_not_self]
  exact BitVec.and_zero

/-- LD_I (R126). -/
theorem execLdI_eq (nnn : BitVec 12) (s : State) :
    execLdI nnn s = .next { s with pc := s.pc + 2#16, I := BitVec.ofNat 16 nnn.toNat } := by
  rw [← addrOf_eq_ofNat]
  rfl

/-- LD_F (R161). -/
theorem execLdF_eq (x : Reg) (s : State) :
    execLdF x s = .next { s with pc := s.pc + 2#16, I := BitVec.ofNat 16 (s.V[x].toNat * 5) } := by
  rw [← glyphAddr_eq_ofNat]
  rfl

/-- RND whatever byte is drawn (R128). -/
theorem execRndWith_eq (r : Byte) (x : Reg) (nn : Byte) (s : State) :
    execRndWith r x nn s = .next { s with
      pc := s.pc + 2#16, V := s.V.set x.val (r &&& nn) x.isLt, draws := s.draws + 1 } := rfl

end Sys2Proof.Machine

namespace Sys2Proof.Proofs

open Sys2Proof.Machine

/-- Settles O34: the 12 bits are zero-extended, and the whole byte is multiplied in 16 bits, where it does not wrap. -/
theorem indexLoads : Obligations.IndexLoads :=
  fun nnn x s => ⟨decode_encode (.ldI nnn), decode_encode (.ldF x), execLdI_eq nnn s, execLdF_eq x s⟩

/-- Settles O36: RND is `execRndWith` at the free byte of this draw, and no byte AND `NN` has a bit outside `NN`. -/
theorem rndMasksAFreeByte : Obligations.RndMasksAFreeByte := fun x nn s =>
  ⟨decode_encode (.rnd x nn), Config.randomByte s.draws, execRndWith_eq _ x nn s, rfl, and_and_not_eq_zero _ nn⟩

end Sys2Proof.Proofs
end

section
/-! SUPPORT. The whole state DRW leaves, and what the same DRW does to it again: a display is its cells, so XORing the
same cells twice restores it (45_draw_D R138 to R143). -/

namespace Sys2Proof.Safety

open Sys2Proof.Machine

/-- Two displays with the same 2048 cells are one (10_state R20). -/
theorem display_ext {d d' : Display} (h : ∀ c : Fin 2048, Display.cell d c = Display.cell d' c) : d = d' := by
  apply Vector.ext
  intro py hpy
  apply BitVec.eq_of_getLsbD_eq
  intro px hpx
  have hcell := h (cellAt ⟨py, hpy⟩ ⟨px, hpx⟩)
  rwa [cell_cellAt, cell_cellAt] at hcell

/-- DRW does not fault exactly where it reads no byte or its last byte is at most 0xFFF (R141, R142). -/
theorem faultOf_drw_eq_none {x y : Reg} {n : Fin 16} {s : State} :
    faultOf (.drw x y n) s = none ↔ n.val = 0 ∨ s.I.toNat + n.val - 1 ≤ 0xFFF := by
  rw [faultOf_drw, rangeFault_eq_none]
  omega

/-- DRW of no rows draws nothing (R142). -/
theorem drawnBy_zero (x y : Reg) (s : State) : drawnBy x y 0 s = (s.display, false) := rfl

variable (x y : Reg) (n : Fin 16) (s : State)

/-- The state DRW leaves where it does not fault (`exec_drw_eq_afterDraw`). -/
def afterDraw : State :=
  { s with
    pc := s.pc + 2#16
    V := s.V.set 15 (if collides s x y n then 1#8 else 0#8)
    display := (drawnBy x y n s).1
    isDrawing := true }

/-- DRW in range, its flag the collision (R138, R143). -/
theorem exec_drw_eq_afterDraw (h : faultOf (.drw x y n) s = none) :
    exec (.drw x y n) s = .next (afterDraw x y n s) := by
  rw [exec_drw h, collision_drawnBy]
  rfl

theorem cell_afterDraw (c : Fin 2048) : (afterDraw x y n s).cell c = xor (s.cell c) (drawnAt s x y n c.val) :=
  cell_drawnBy x y n s c

theorem afterDraw_VF : (afterDraw x y n s).V[VF] = 1#8 ↔ collides s x y n = true := by
  have hflag : (afterDraw x y n s).V[VF] = if collides s x y n then 1#8 else 0#8 := Vector.getElem_set_self _
  rw [hflag]
  cases collides s x y n <;> decide

theorem getElem_afterDraw_of_ne_VF {r : Reg} (hr : r ≠ VF) : (afterDraw x y n s).V[r] = s.V[r] :=
  Vector.getElem_set_ne VF.isLt r.isLt fun h => hr (Fin.ext h.symm)

/-- The same DRW draws at the same cells again: it has moved neither the sprite nor, but for VF, the coordinates. -/
theorem drawnAt_afterDraw {x y : Reg} (hx : x ≠ VF) (hy : y ≠ VF) :
    drawnAt (afterDraw x y n s) x y n = drawnAt s x y n := by
  funext c
  simp only [drawnAt, getElem_afterDraw_of_ne_VF x y n s hx, getElem_afterDraw_of_ne_VF x y n s hy]
  rfl

end Sys2Proof.Safety
end

section
/-! SUPPORT. DRW (45_draw_D R135 to R143). -/

namespace Sys2Proof.Proofs

open Sys2Proof.Machine Sys2Proof.Safety

/-- Settles O39: cell by cell by `cell_afterDraw`, and every other field by the state DRW leaves. -/
theorem drawTogglesExactlyTheSprite : Obligations.DrawTogglesExactlyTheSprite := fun x y n s =>
  ⟨decode_encode (.drw x y n), fun h =>
    ⟨_, exec_drw_eq_afterDraw x y n s (faultOf_drw_eq_none.mpr h), cell_afterDraw x y n s, rfl⟩⟩

/-- Settles O40: the fault by the fault table, the draw of no rows by `drawnBy_zero`. -/
theorem drawRangeCheckAndZeroRows : Obligations.DrawRangeCheckAndZeroRows := by
  refine fun x y s => ⟨fun n hn hout => ?outOfRange, ?zeroRows⟩
  case outOfRange => exact exec_of_faultOf_some (if_pos ⟨hn, hout⟩)
  case zeroRows =>
    rw [exec_drw (faultOf_drw_eq_none.mpr (.inl rfl)), drawnBy_zero]
    rfl

/-- Settles O41: both draws XOR the same cells (`drawnAt_afterDraw`), and a cell drawn at is lit before the second draw
exactly when it was unlit before the first. -/
theorem drawTwiceRestoresDisplay : Obligations.DrawTwiceRestoresDisplay := by
  intro x y n s t u hx hy hfault ht hu
  cases (exec_drw_eq_afterDraw x y n s hfault).symm.trans ht
  cases (exec_drw_eq_afterDraw x y n (afterDraw x y n s) hfault).symm.trans hu
  constructor
  · refine display_ext fun c => (cell_afterDraw x y n (afterDraw x y n s) c).trans ?_
    rw [cell_afterDraw, drawnAt_afterDraw n s hx hy, Bool.xor_assoc, Bool.xor_self, Bool.xor_false]
    rfl
  · rw [afterDraw_VF, collides_iff, drawnAt_afterDraw n s hx hy]
    refine exists_congr fun c => and_congr_right fun hdrawn => ?_
    rw [cell_afterDraw, hdrawn, Bool.xor_true, Bool.not_eq_true']

end Sys2Proof.Proofs
end

section
/-! SUPPORT. The key skips: the whole state SKP and SKNP leave, and which codes name a pressed key (46_keys_E R150 to
R152). -/

namespace Sys2Proof.Machine

/-- A skip that is taken when a condition fails, the whole state (R13). -/
theorem State.skip_not_eq (s : State) (c : Bool) :
    s.advance.skipIf (!c) = { s with pc := if c then s.pc + 2#16 else s.pc + 4#16 } := by
  rw [State.skip_eq]
  cases c <;> rfl

/-- A code of at most 15 is read at its own bit of `keys` (R152). -/
theorem pressed_of_toNat_eq {keys : BitVec 16} {b : Byte} {k : Fin 16} (h : b.toNat = k.val) :
    pressed keys b = keys[k] := by
  have hcode : k.val ≤ 15 := by omega
  rw [pressed, h, decide_eq_true hcode, Bool.true_and]
  exact BitVec.getLsbD_eq_getElem k.isLt

/-- A code above 15 names no key (R152, decision D11). -/
theorem pressed_of_gt {keys : BitVec 16} {b : Byte} (h : b.toNat > 15) : pressed keys b = false := by
  rw [pressed, decide_eq_false (Nat.not_le.mpr h), Bool.false_and]

/-- SKP (R150). -/
theorem execSkp_eq (x : Reg) (s : State) :
    execSkp x s = .next { s with pc := if pressed s.keys s.V[x] then s.pc + 4#16 else s.pc + 2#16 } :=
  congrArg _ (s.skip_eq (pressed s.keys s.V[x]))

/-- SKNP (R151). -/
theorem execSknp_eq (x : Reg) (s : State) :
    execSknp x s = .next { s with pc := if pressed s.keys s.V[x] then s.pc + 2#16 else s.pc + 4#16 } :=
  congrArg _ (s.skip_not_eq (pressed s.keys s.V[x]))

end Sys2Proof.Machine

namespace Sys2Proof.Proofs

open Sys2Proof.Machine

/-- Settles O28: both skips test `pressed` at the value of `V[X]`, which is the key's bit for a code that names a key and
false for one that names none. -/
theorem keySkips : Obligations.KeySkips := by
  refine fun x s => ⟨decode_encode (.skp x), decode_encode (.sknp x), fun k hk => ?key, fun hgt => ?noKey⟩
  case key =>
    rw [← pressed_of_toNat_eq hk]
    exact ⟨execSkp_eq x s, execSknp_eq x s⟩
  case noKey =>
    have hskp := execSkp_eq x s
    have hsknp := execSknp_eq x s
    rw [pressed_of_gt hgt] at hskp hsknp
    exact ⟨hskp, hsknp⟩

end Sys2Proof.Proofs
end

section
/-! SUPPORT. The family F instructions that touch no memory: the whole state ADD_I leaves, and the key the scan of
LD_VX_K finds (47_timers_index_memory_F R157, R160). -/

namespace Sys2Proof.Machine

theorem rangeFlag_eq_ite (i : Word) (a : Byte) : rangeFlag i a = if i.toNat + a.toNat > 0xFFF then 1#8 else 0#8 :=
  flagBit_decide _

/-- ADD_I (R160). -/
theorem execAddI_eq (x : Reg) (s : State) :
    execAddI x s = .next { s with
      pc := s.pc + 2#16
      V := s.V.set 15 (if s.I.toNat + s.V[x].toNat > 0xFFF then 1#8 else 0#8)
      I := BitVec.ofNat 16 ((s.I.toNat + s.V[x].toNat) % 65536) } := by
  rw [← rangeFlag_eq_ite, ← word_add_byte_eq_ofNat]
  rfl

/-- The scan finds the pressed key below which none is pressed (R157). -/
theorem lowestKey_eq_some {keys : BitVec 16} {k : Fin 16} (hk : keys[k] = true)
    (hleast : ∀ j : Fin 16, j < k → keys[j] = false) : lowestKey keys = some k.val := by
  refine List.find?_range_eq_some.mpr ⟨?_, List.mem_range.mpr k.isLt, fun j hj => ?_⟩
  · exact (BitVec.getLsbD_eq_getElem k.isLt).trans hk
  · have hlow := hleast ⟨j, by omega⟩ hj
    rw [BitVec.getLsbD_eq_getElem (by omega)]
    exact congrArg not hlow

/-- The scan finds nothing where each of the sixteen keys is up (R157). -/
theorem lowestKey_eq_none {keys : BitVec 16} (h : ∀ k : Fin 16, keys[k] = false) : lowestKey keys = none := by
  refine lowestKey_none.mpr (BitVec.eq_of_getElem_eq fun k hk => ?_)
  rw [BitVec.getElem_zero]
  exact h ⟨k, hk⟩

end Sys2Proof.Machine
end

section
/-! SUPPORT. Timers, key wait and ADD_I, instruction by instruction (47_timers_index_memory_F R156 to R160). -/

namespace Sys2Proof.Proofs

open Sys2Proof.Machine

/-- Settles O35: flag and sum are computed from the state before the step, so with `X = 15` the addend is the old VF. -/
theorem addIndexSetsRangeFlag : Obligations.AddIndexSetsRangeFlag :=
  fun x s => ⟨decode_encode (.addI x), execAddI_eq x s⟩

/-- Settles O37: each of the three is the pre-increment and one write. -/
theorem timerTransfers : Obligations.TimerTransfers :=
  fun x _ => ⟨decode_encode (.ldVxDt x), decode_encode (.ldDtVx x), decode_encode (.ldStVx x), rfl, rfl, rfl⟩

/-- Settles O38: the two ways LD_VX_K goes, by what the key scan finds. -/
theorem keyWaitPolls : Obligations.KeyWaitPolls := fun x _ =>
  ⟨decode_encode (.ldVxK x), fun _ hk hleast => execLdVxK_some x (lowestKey_eq_some hk hleast),
    fun hup => execLdVxK_none x (lowestKey_eq_none hup)⟩

end Sys2Proof.Proofs
end

section
/-! SUPPORT. The memory instructions of family F: where they do not fault, `I` advanced as a sum of numbers, and the
fields LD_REGS leaves alone (47_timers_index_memory_F R162 to R164, 60_exceptions R183). -/

namespace Sys2Proof.Machine

theorem word_add_ofNat_eq_ofNat (w : Word) (n : Nat) : w + BitVec.ofNat 16 n = BitVec.ofNat 16 (w.toNat + n) := by
  rw [BitVec.ofNat_add, BitVec.ofNat_toNat, BitVec.setWidth_eq]

/-- Loading registers writes registers only (R164). -/
theorem State.loadRegs_eq (s : State) (base n : Nat) : s.loadRegs base n = { s with V := (s.loadRegs base n).V } := by
  induction n with
  | zero => rfl
  | succ n ih =>
    unfold State.loadRegs
    split
    · rw [ih]
      rfl
    · exact ih

/-- A number below 256 is read back from the byte that holds it. -/
theorem toNat_ofNat_byte {n : Nat} (h : n < 256) : (BitVec.ofNat 8 n).toNat = n :=
  (BitVec.toNat_ofNat n 8).trans (Nat.mod_eq_of_lt h)

end Sys2Proof.Machine

namespace Sys2Proof.Safety

open Sys2Proof.Machine

variable {x : Reg} {s : State}

/-- LD_B does not fault exactly where its three bytes end at 0xFFF or below (R183). -/
theorem faultOf_ldB_eq_none : faultOf (.ldB x) s = none ↔ s.I.toNat + 2 ≤ 0xFFF := by
  rw [faultOf_ldB, rangeFault_eq_none]
  omega

/-- ST_REGS does not fault exactly where its `X + 1` bytes end at 0xFFF or below (R183). -/
theorem faultOf_stRegs_eq_none : faultOf (.stRegs x) s = none ↔ s.I.toNat + x.val ≤ 0xFFF := by
  rw [faultOf_stRegs, rangeFault_eq_none]
  omega

/-- LD_REGS does not fault exactly where ST_REGS does not (R183). -/
theorem faultOf_ldRegs_eq_none : faultOf (.ldRegs x) s = none ↔ s.I.toNat + x.val ≤ 0xFFF :=
  faultOf_stRegs_eq_none

end Sys2Proof.Safety
end

section
/-! SUPPORT. LD_B, ST_REGS and LD_REGS (47_timers_index_memory_F R162 to R164). -/

namespace Sys2Proof.Proofs

open Sys2Proof.Machine Sys2Proof.Safety

/-- Settles O42: the bytes by the table of O19, in which the digits, all below 256, stand at `I` to `I + 2`. -/
theorem storeDigits : Obligations.StoreDigits := by
  refine fun x s => ⟨decode_encode (.ldB x), fun hs hin => ?stored, fun hout => ?fault⟩
  case stored =>
    have hnf : faultOf (.ldB x) s = none := faultOf_ldB_eq_none.mpr hin
    have hbyte := s.V[x].isLt
    obtain ⟨t, ht, hbytes⟩ := memoryAfterEveryInstruction _ s hs hnf
    refine ⟨t, ht, ?hundreds, ?tens, ?ones, fun a ha => ?outside, ?frame⟩
    case hundreds => rw [hbytes, byteAfter, if_pos rfl, toNat_ofNat_byte (by omega)]
    case tens => rw [hbytes, byteAfter, if_neg (by omega), if_pos rfl, toNat_ofNat_byte (by omega)]
    case ones =>
      rw [hbytes, byteAfter, if_neg (by omega), if_neg (by omega), if_pos rfl, toNat_ofNat_byte (by omega)]
    case outside => rw [hbytes, byteAfter, if_neg (by omega), if_neg (by omega), if_neg (by omega)]
    case frame =>
      cases (exec_ldB hnf).symm.trans ht
      rfl
  case fault => exact exec_of_faultOf_some (if_pos hout)

/-- Settles O43: the bytes by the table of O19, `I` by its sum on numbers. -/
theorem storeRegisters : Obligations.StoreRegisters := by
  refine fun x s => ⟨decode_encode (.stRegs x), fun hs hin => ?stored, fun hout => ?fault⟩
  case stored =>
    have hnf : faultOf (.stRegs x) s = none := faultOf_stRegs_eq_none.mpr hin
    obtain ⟨t, ht, hbytes⟩ := memoryAfterEveryInstruction _ s hs hnf
    refine ⟨t, ht, fun k hk => byteAt_exec_stRegs hs hin ht hk, fun a ha => ?outside, ?frame⟩
    case outside => rw [hbytes, byteAfter, if_neg (by omega)]
    case frame =>
      cases (exec_stRegs hnf).symm.trans ht
      rw [Nat.add_assoc, ← word_add_ofNat_eq_ofNat]
      rfl
  case fault => exact exec_of_faultOf_some (if_pos hout)

/-- Settles O44: the registers by the run of bytes loaded, the rest by `State.loadRegs_eq`. -/
theorem loadRegisters : Obligations.LoadRegisters := by
  refine fun x s => ⟨decode_encode (.ldRegs x), fun hin => ?loaded, fun hout => ?fault⟩
  case loaded =>
    have hregs := s.advance.getElem_loadRegs s.I.toNat (x.val + 1)
    refine ⟨_, exec_ldRegs (faultOf_ldRegs_eq_none.mpr hin), fun k hk => ?upToX, fun k hk => ?aboveX, ?frame⟩
    case upToX => exact (hregs k).trans (if_pos (Nat.lt_succ_of_le hk))
    case aboveX => exact (hregs k).trans (if_neg (Nat.not_lt.mpr hk))
    case frame =>
      rw [State.loadRegs_eq, Nat.add_assoc, ← word_add_ofNat_eq_ofNat]
      rfl
  case fault => exact exec_of_faultOf_some (if_pos hout)

/-- Settles O45: LD_REGS reads the bytes that ST_REGS wrote, and both advance the same `I` by `X + 1`. -/
theorem storeThenLoadRestoresRegisters : Obligations.StoreThenLoadRestoresRegisters := by
  intro x s t u hs hin ht hmem hI
  obtain ⟨-, hstore, -⟩ := storeRegisters x s
  obtain ⟨t', ht', hstored, -, hframe⟩ := hstore hs hin
  cases ht'.symm.trans ht
  obtain ⟨-, hload, -⟩ := loadRegisters x u
  rw [hI] at hload
  obtain ⟨w, hw, hloaded, -, hframe'⟩ := hload hin
  refine ⟨w, hw, fun k hk => ?_, (congrArg State.I hframe').trans (congrArg State.I hframe).symm⟩
  calc w.V[k] = u.byteAt (s.I.toNat + k.val) := hloaded k hk
    _ = t.byteAt (s.I.toNat + k.val) := congrArg (Memory.read · _) hmem
    _ = s.V[k] := hstored k hk

end Sys2Proof.Proofs
end

section
/-! SUPPORT. The fault table over all 34 instructions (60_exceptions R180 to R184). -/

namespace Sys2Proof.Proofs

open Sys2Proof.Safety

/-- Settles O12: an instruction under its tabled condition, and one outside it. -/
theorem instructionsFaultExactlyWhereTabled : Obligations.InstructionsFaultExactlyWhereTabled :=
  fun _ _ => ⟨fun _ => exec_of_faultOf_some, exec_of_faultOf_none⟩

end Sys2Proof.Proofs
end

section
/-! SUPPORT. The host's events: any number of ticks, where LoadProgram is answered and with what, and the phase each
event leads to (60_exceptions R193, R199; 70_reset_and_hazards R214, R215). -/

namespace Sys2Proof.Machine

/-- One tick takes one from a timer, and nothing from a timer at zero, as subtraction of numbers does (R193). -/
theorem toNat_countDown (t : Byte) : (countDown t).toNat = t.toNat - 1 := by
  unfold countDown
  split
  · exact BitVec.toNat_sub_of_le (BitVec.le_def.mpr ‹_›)
  · omega

theorem toNat_iterate_countDown (n : Nat) (t : Byte) : (countDown^[n] t).toNat = t.toNat - n := by
  induction n with
  | zero => rfl
  | succ n ih => rw [Function.iterate_succ_apply', toNat_countDown, ih, Nat.sub_sub]

/-- Ticks are countdowns of the two timers and of nothing else (R193, decision D15). -/
theorem iterate_timerTick (n : Nat) (s : State) :
    timerTick^[n] s =
      { s with delayTimer := countDown^[n] s.delayTimer, soundTimer := countDown^[n] s.soundTimer } := by
  induction n generalizing s with
  | zero => rfl
  | succ n ih => exact ih (timerTick s)

/-- An image that does not fit is refused (R199). -/
theorem loadProgram_of_gt {bytes : List Byte} (h : bytes.length > 0xE00) (s : State) :
    loadProgram bytes s = .refused (.programTooLarge bytes.length) :=
  if_pos h

/-- An image that fits is stored from 0x200 up (R214). -/
theorem loadProgram_of_le {bytes : List Byte} (h : bytes.length ≤ 0xE00) (s : State) :
    loadProgram bytes s = .next (s.storeBytes 0x200 bytes) :=
  if_neg (Nat.not_lt.mpr h)

theorem apply_loadProgram_of_boot {ss : Session} (h : ss.phase = .boot) (bytes : List Byte) :
    (Event.loadProgram bytes).apply ss = inPhase .boot (loadProgram bytes ss.machine) := by
  simp only [Event.apply, h]

theorem apply_loadProgram_of_running {ss : Session} (h : ss.phase = .running) (bytes : List Byte) :
    (Event.loadProgram bytes).apply ss = .refused .loadOutsideBoot := by
  simp only [Event.apply, h]

/-- The phase an event that is answered leads to (`phase_of_apply_eq_next`). -/
def Event.phaseAfter (e : Event) (p : Phase) : Phase :=
  match e with
  | .reset => .boot
  | .step => .running
  | _ => p

theorem phase_of_apply_eq_next {e : Event} {a b : Session} (h : e.apply a = .next b) :
    b.phase = e.phaseAfter a.phase := by
  cases e with
  | loadProgram bytes =>
    rcases hp : a.phase with _ | _
    · rw [apply_loadProgram_of_boot hp] at h
      obtain ⟨t, -, rfl⟩ := inPhase_eq_next.mp h
      rfl
    · cases (apply_loadProgram_of_running hp bytes).symm.trans h
  | step =>
    obtain ⟨t, -, rfl⟩ := inPhase_eq_next.mp h
    rfl
  | _ => cases h; rfl

/-- Only a Step leads from the boot phase elsewhere (R214, decision D19). -/
theorem Event.phaseAfter_boot {e : Event} (h : e ≠ .step) : e.phaseAfter .boot = .boot := by
  cases e with
  | step => exact absurd rfl h
  | _ => rfl

/-- Only a Reset leads from the running phase elsewhere (R214, decision D19). -/
theorem Event.phaseAfter_running {e : Event} (h : e ≠ .reset) : e.phaseAfter .running = .running := by
  cases e with
  | reset => exact absurd rfl h
  | _ => rfl

end Sys2Proof.Machine
end

section
/-! SUPPORT. The host's events and the sessions they reach (60_exceptions R193 to R199, 70_reset_and_hazards R212 to
R215). -/

namespace Sys2Proof.Proofs

open Sys2Proof.Machine Sys2Proof.Safety

/-- Settles O49: `n` ticks count each timer down `n` times, which is subtraction floored at zero. -/
theorem ticksCountDownToZero : Obligations.TicksCountDownToZero := by
  intro s n
  refine ⟨_, iterate_timerTick n s, ?_, ?_, rfl⟩
  · exact toNat_iterate_countDown n s.delayTimer
  · exact toNat_iterate_countDown n s.soundTimer

/-- Settles O50: each event is one field's update. -/
theorem keyUpdateAndClearDirty : Obligations.KeyUpdateAndClearDirty := fun _ _ => ⟨rfl, rfl⟩

/-- Settles O51: an image of at most 0xE00 bytes ends inside memory, so it is one run of bytes stored from 0x200 up. -/
theorem loadProgramPlacesWholeImage : Obligations.LoadProgramPlacesWholeImage := by
  refine fun bytes s => ⟨fun hlarge => loadProgram_of_gt hlarge s, fun hfits hs => ?_⟩
  have hbytes := State.byteAt_storeBytes (s := s) (base := 0x200) (bs := bytes) hs (by omega)
  refine ⟨_, loadProgram_of_le hfits s, fun k hk => ?inside, fun a ha => ?outside, rfl⟩
  case inside => rw [hbytes, if_pos (by omega), Nat.add_sub_cancel_left, List.getD_eq_getElem _ _ hk]
  case outside => rw [hbytes, if_neg (by omega)]

/-- Settles O52: what LoadProgram answers by the phase, and the phase every other event leads to. -/
theorem loadOnlyBeforeFirstStep : Obligations.LoadOnlyBeforeFirstStep := by
  refine ⟨fun ss bytes hrun => apply_loadProgram_of_running hrun bytes, fun ss bytes hboot hfits => ?loads,
    fun ss => ?steps, fun ss e ss' he hboot h => ?staysBoot, fun ss e ss' he hrun h => ?staysRunning⟩
  case loads =>
    have hload := loadProgram_of_le hfits ss.machine
    exact ⟨_, hload, by rw [apply_loadProgram_of_boot hboot, hload, inPhase]⟩
  case steps =>
    obtain ⟨m, hm, -⟩ := step_writesTo ss.machine
    exact ⟨m, inPhase_eq_next.mpr ⟨m, hm, rfl⟩⟩
  case staysBoot => rw [phase_of_apply_eq_next h, hboot, Event.phaseAfter_boot he]
  case staysRunning => rw [phase_of_apply_eq_next h, hrun, Event.phaseAfter_running he]

/-- Settles O55: power-on has a canonical memory, and every event keeps it (O60). -/
theorem reachableMemoryIsCanonical : Obligations.ReachableMemoryIsCanonical := by
  obtain ⟨hpowerOn, hevent⟩ := everyEventKeepsMemoryCanonical
  intro ss h
  induction h with
  | powerOn => exact hpowerOn
  | event e a b _ hab ih => exact hevent e a b ih hab

end Sys2Proof.Proofs
end
